-- ==== Sys2Proof/Word.lean ====
section
/-! DEFINITION. The two bit-vector types of the LC32 core: a byte of memory and a 32-bit register value
(spec/00_scope.md R7, R8).  Both are abbreviations, so every `BitVec` lemma applies. -/

namespace Sys2Proof

/-- A byte: a cell of memory, an instruction field, the flag register, an output byte. -/
abbrev Byte := BitVec 8

/-- A 32-bit value: a general register, `pc`, `sp`, an address, the immediate field. -/
abbrev Word := BitVec 32

end Sys2Proof
end

