-- ==== Sys2Proof/Syntax.lean ====
section
/-! DEFINITION. The instructions of the LC32 core as terms: one constructor for each of the thirteen rows of
spec/opcode_table.json (spec/30_encoding.md R95), with the operands R81 says the opcode uses.  A field an
opcode ignores (R88) is no operand and does not stand in the term. -/

namespace Sys2Proof

/-- The four general registers, ordinals 0 to 3 (spec/10_state.md R20). -/
inductive Reg where
  | a | b | c | d
deriving DecidableEq, Repr

/-- A register's ordinal (R20: "ordinal 0–3, conventionally named A, B, C, D"). -/
def Reg.ordinal : Reg → Nat
  | .a => 0
  | .b => 1
  | .c => 2
  | .d => 3

/-- An LC32 instruction.  `addr` is the 32-bit base address (the `imm` field), `disp` the displacement byte,
`scale` the scale byte (for `ldMem`, `ldr` and `st` also the access width). -/
inductive Instr where
  /-- BR (0x20), R110. -/
  | br (addr : Word) (disp scale : Byte)
  /-- BRC (0x21), R111: `mask` is the whole register-select byte. -/
  | brc (mask : Byte) (addr : Word) (disp scale : Byte)
  /-- LD reg,imm (0x40), R120. -/
  | ldImm (r : Reg) (imm : Word)
  /-- ADD reg,imm (0x41), R121. -/
  | add (r : Reg) (imm : Word)
  /-- SUB reg,imm (0x42), R122. -/
  | sub (r : Reg) (imm : Word)
  /-- MUL reg,imm (0x43), R123. -/
  | mul (r : Reg) (imm : Word)
  /-- DIV reg,imm (0x44), R124. -/
  | div (r : Reg) (imm : Word)
  /-- LD reg,[addr] (0x50), R140. -/
  | ldMem (r : Reg) (addr : Word) (disp scale : Byte)
  /-- LDR reg,[reg] (0x51), R141: `r1` is loaded from the address in `r2`. -/
  | ldr (r1 r2 : Reg) (scale : Byte)
  /-- ST [addr],reg (0x58), R142. -/
  | st (r : Reg) (addr : Word) (disp scale : Byte)
  /-- CPR reg,imm (0xC0), R160. -/
  | cpr (r : Reg) (imm : Word)
  /-- STP (0xF0), R170. -/
  | stp
  /-- BRK (0xF1), R172: `code` is the trap code. -/
  | brk (code : Word)
deriving DecidableEq, Repr

/-- The thirteen opcodes by name (R95), in the table's order. -/
inductive Opcode where
  | br | brc | ldImm | add | sub | mul | div | ldMem | ldr | st | cpr | stp | brk
deriving DecidableEq, Repr

/-- The four raw fields that follow the opcode byte (R80), as the decoder hands them on, "register selector
byte left undecoded" (R92). -/
structure OperandBlock where
  rs : Byte
  disp : Byte
  scale : Byte
  imm : Word
deriving DecidableEq, Repr

end Sys2Proof
end

