-- ==== Sys2Proof/WellFormed.lean ====
section
/-! DEFINITION. Well-formed instructions: those whose own operands are legal.  The types of
Sys2Proof/Syntax.lean already rule out an operand no encoding has (R21: no encoding names a register that does
not exist), so every term can be encoded.  What a term can still get wrong are the operand values the spec
turns into a fault whatever the state is: a bad width, an unknown trap code, a zero divisor
(spec/60_exceptions.md R190, causes 2 to 4).  Such a term is still an instruction: it decodes, and executing
it takes that fault. -/

namespace Sys2Proof

/-- `scale` names an access width: 1, 2 or 4 bytes (spec/42_load_store.md, R57). -/
def isWidth (scale : Byte) : Bool := scale = 1#8 || scale = 2#8 || scale = 4#8

/-- No operand of the instruction is a fault by itself. -/
def Instr.wellFormed : Instr → Bool
  | .br _ _ _ => true
  | .brc _ _ _ _ => true
  | .ldImm _ _ => true
  | .add _ _ => true
  | .sub _ _ => true
  | .mul _ _ => true
  | .div _ imm => imm ≠ 0#32
  | .ldMem _ _ _ scale => isWidth scale
  | .ldr _ _ scale => isWidth scale
  | .st _ _ _ scale => isWidth scale
  | .cpr _ _ => true
  | .stp => true
  | .brk code => code = 1#32

end Sys2Proof
end

