-- ==== Sys2Proof/Decode.lean ====
section
/-! DEFINITION. The decoder of spec/30_encoding.md, total on any list of bytes and rejecting by name, and after
it the encoder, written from the same rules: the format R80, the fields R81 to R88 and the opcode map R95. -/

namespace Sys2Proof

/-- Why a list of bytes (lowest address first) is no instruction. -/
inductive DecodeError where
  /-- There is no opcode byte. -/
  | noOpcode
  /-- The opcode byte is not one of the thirteen (R94). -/
  | unknownOpcode (op : Byte)
  /-- The opcode is legal, but fewer than seven operand bytes follow it (R80: every instruction is 8 bytes). -/
  | operandBlockCut (op : Byte)
deriving DecidableEq, Repr

/-- The opcode byte of each opcode (R95). -/
def Opcode.toByte : Opcode → Byte
  | .br => 0x20#8
  | .brc => 0x21#8
  | .ldImm => 0x40#8
  | .add => 0x41#8
  | .sub => 0x42#8
  | .mul => 0x43#8
  | .div => 0x44#8
  | .ldMem => 0x50#8
  | .ldr => 0x51#8
  | .st => 0x58#8
  | .cpr => 0xC0#8
  | .stp => 0xF0#8
  | .brk => 0xF1#8

/-- The canonical set, thirteen opcodes and no more (R95). -/
def Opcode.all : List Opcode :=
  [.br, .brc, .ldImm, .add, .sub, .mul, .div, .ldMem, .ldr, .st, .cpr, .stp, .brk]

/-- Look an opcode byte up; all eight bits take part (R82), and any other byte is illegal (R94). -/
def Opcode.ofByte (b : Byte) : Option Opcode := Opcode.all.find? (fun o => o.toByte = b)

/-- The 2-bit register field at position `p` (1 to 4) of the register-select byte: `rs[2p-1 : 2p-2]` (R83). -/
def regField (rs : Byte) (p : Nat) : BitVec 2 := rs.extractLsb' (2 * (p - 1)) 2

/-- The register a 2-bit field names (R20, R21). -/
def Reg.ofField (f : BitVec 2) : Reg :=
  if f = 0#2 then .a else if f = 1#2 then .b else if f = 2#2 then .c else .d

/-- `reg_at(rs, p)` (R83). -/
def regAt (rs : Byte) (p : Nat) : Reg := Reg.ofField (regField rs p)

/-- Four bytes in memory order as a 32-bit value, least significant first (R53, R87). -/
def leWord (b0 b1 b2 b3 : Byte) : Word := b3 ++ b2 ++ b1 ++ b0

/-- The instruction an opcode and its operand block make: each opcode takes the fields R81 gives it and drops
the others (R88). -/
def assemble : Opcode → OperandBlock → Instr
  | .br, f => .br f.imm f.disp f.scale
  | .brc, f => .brc f.rs f.imm f.disp f.scale
  | .ldImm, f => .ldImm (regAt f.rs 1) f.imm
  | .add, f => .add (regAt f.rs 1) f.imm
  | .sub, f => .sub (regAt f.rs 1) f.imm
  | .mul, f => .mul (regAt f.rs 1) f.imm
  | .div, f => .div (regAt f.rs 1) f.imm
  | .ldMem, f => .ldMem (regAt f.rs 1) f.imm f.disp f.scale
  | .ldr, f => .ldr (regAt f.rs 1) (regAt f.rs 2) f.scale
  | .st, f => .st (regAt f.rs 1) f.imm f.disp f.scale
  | .cpr, f => .cpr (regAt f.rs 1) f.imm
  | .stp, _ => .stp
  | .brk, f => .brk f.imm

/-- Decode the instruction at the head of a byte list, and give back what follows it.  The opcode byte is looked
up before the operand block is touched, as in R90. -/
def decode : List Byte → Except DecodeError (Instr × List Byte)
  | [] => .error .noOpcode
  | op :: rest =>
    match Opcode.ofByte op with
    | none => .error (.unknownOpcode op)
    | some o =>
      match rest with
      | rs :: disp :: scale :: b0 :: b1 :: b2 :: b3 :: tail =>
        .ok (assemble o ⟨rs, disp, scale, leWord b0 b1 b2 b3⟩, tail)
      | _ => .error (.operandBlockCut op)

/-- The eight bytes of a number laid out as the core stores an instruction word: the lowest bits at the lowest
address (R80: `iw = sum of M[ia+k] << 8k`). -/
def wordBytes (w : Nat) : List Byte :=
  [0, 1, 2, 3, 4, 5, 6, 7].map (fun k => BitVec.ofNat 8 (w / 256 ^ k))

/-- The instruction of the table word `w` of `nbits` bits, numbered as spec/opcode_table.json numbers them
(R80's `iw`); bits at and above `nbits` are 0. -/
def decodeTableWord (nbits w : Nat) : Option Instr :=
  match decode (wordBytes (w % 2 ^ nbits)) with
  | .ok (i, _) => some i
  | .error _ => none

/-! The encoder. -/

/-- The opcode of an instruction. -/
def Instr.opcode : Instr → Opcode
  | .br _ _ _ => .br
  | .brc _ _ _ _ => .brc
  | .ldImm _ _ => .ldImm
  | .add _ _ => .add
  | .sub _ _ => .sub
  | .mul _ _ => .mul
  | .div _ _ => .div
  | .ldMem _ _ _ _ => .ldMem
  | .ldr _ _ _ => .ldr
  | .st _ _ _ _ => .st
  | .cpr _ _ => .cpr
  | .stp => .stp
  | .brk _ => .brk

/-- The register-select byte for `reg1`, or for `reg1` and `reg2`: `ordinal(r1) | ordinal(r2) << 2` (R97). -/
def selectByte (r1 : Reg) (r2 : Reg := .a) : Byte :=
  BitVec.ofNat 8 r1.ordinal ||| (BitVec.ofNat 8 r2.ordinal <<< 2)

/-- The operand block of an instruction, every unused field 0 (R97). -/
def Instr.operands : Instr → OperandBlock
  | .br addr disp scale => ⟨0#8, disp, scale, addr⟩
  | .brc mask addr disp scale => ⟨mask, disp, scale, addr⟩
  | .ldImm r imm => ⟨selectByte r, 0#8, 0#8, imm⟩
  | .add r imm => ⟨selectByte r, 0#8, 0#8, imm⟩
  | .sub r imm => ⟨selectByte r, 0#8, 0#8, imm⟩
  | .mul r imm => ⟨selectByte r, 0#8, 0#8, imm⟩
  | .div r imm => ⟨selectByte r, 0#8, 0#8, imm⟩
  | .ldMem r addr disp scale => ⟨selectByte r, disp, scale, addr⟩
  | .ldr r1 r2 scale => ⟨selectByte r1 r2, 0#8, scale, 0#32⟩
  | .st r addr disp scale => ⟨selectByte r, disp, scale, addr⟩
  | .cpr r imm => ⟨selectByte r, 0#8, 0#8, imm⟩
  | .stp => ⟨0#8, 0#8, 0#8, 0#32⟩
  | .brk code => ⟨0#8, 0#8, 0#8, code⟩

/-- The four bytes of a 32-bit value, least significant first (R53). -/
def leBytes (v : Word) : List Byte :=
  [v.extractLsb' 0 8, v.extractLsb' 8 8, v.extractLsb' 16 8, v.extractLsb' 24 8]

/-- The eight bytes of an instruction, in memory order (R80). -/
def encode (i : Instr) : List Byte :=
  i.opcode.toByte :: i.operands.rs :: i.operands.disp :: i.operands.scale :: leBytes i.operands.imm

/-- For each of the eight bytes, the bits an opcode uses: the complement of the `x` bits of the row's pattern in
spec/opcode_table.json (R81, R88). -/
def Opcode.usedBits : Opcode → List Byte
  | .br => [0xFF#8, 0x00#8, 0xFF#8, 0xFF#8, 0xFF#8, 0xFF#8, 0xFF#8, 0xFF#8]
  | .brc => [0xFF#8, 0xFF#8, 0xFF#8, 0xFF#8, 0xFF#8, 0xFF#8, 0xFF#8, 0xFF#8]
  | .ldImm | .add | .sub | .mul | .div | .cpr =>
    [0xFF#8, 0x03#8, 0x00#8, 0x00#8, 0xFF#8, 0xFF#8, 0xFF#8, 0xFF#8]
  | .ldMem | .st => [0xFF#8, 0x03#8, 0xFF#8, 0xFF#8, 0xFF#8, 0xFF#8, 0xFF#8, 0xFF#8]
  | .ldr => [0xFF#8, 0x0F#8, 0x00#8, 0xFF#8, 0x00#8, 0x00#8, 0x00#8, 0x00#8]
  | .stp => [0xFF#8, 0x00#8, 0x00#8, 0x00#8, 0x00#8, 0x00#8, 0x00#8, 0x00#8]
  | .brk => [0xFF#8, 0x00#8, 0x00#8, 0x00#8, 0xFF#8, 0xFF#8, 0xFF#8, 0xFF#8]

end Sys2Proof
end

