-- ==== Sys2Proof/Config.lean ====
section
/-! DEFINITION. What one implementation of the LC32 core fixes (spec/00_scope.md R7), and the free values
the spec leaves open.  The parameters are plain data: a machine state carries the ones it runs with, so a
statement about every state is a statement about every implementation.  The reference values stand in
Sys2Proof/Machine/Params.lean. -/

namespace Sys2Proof

/-- The quotient function `DIV_FN` (spec/41_arithmetic.md R127, spec/93_implementation_defined.md U3):
the reference reading, or the agnostic one the spec offers beside it. -/
inductive DivFn where
  /-- R127's reference: the unsigned quotient rounded toward zero. -/
  | unsigned
  /-- D8's agnostic reading: any quotient function with `DIV_FN(a, 1) = a` (assumption log 4). -/
  | agnostic
deriving DecidableEq, Repr

/-- The OPEN parameters of spec/00_scope.md R7, with `DIV_FN` beside them. -/
structure Config where
  /-- `MEM_SIZE`, the number of bytes of memory. -/
  memSize : Nat
  /-- `FLAG_Z_MASK`, the bit of Zero-Flag in `flags`. -/
  flagZMask : Byte
  /-- `FLAG_N_MASK`, the bit of Negative-Flag in `flags`. -/
  flagNMask : Byte
  /-- `DIV_FN`, the quotient function of DIV. -/
  divFn : DivFn
deriving DecidableEq, Repr

/-- Exactly one bit of the byte is set. -/
def oneBit (m : Byte) : Bool := m ≠ 0#8 && (m &&& (m - 1#8)) = 0#8

/-- The side conditions R7 puts on the parameters: `1 <= MEM_SIZE <= 2^32`, each flag mask has exactly one
bit, and the two masks differ. -/
def Config.legal (c : Config) : Bool :=
  1 ≤ c.memSize && c.memSize ≤ 2 ^ 32 && oneBit c.flagZMask && oneBit c.flagNMask
    && c.flagZMask ≠ c.flagNMask

/-- FREE VALUE (spec/60_exceptions.md R194, U6): what the `pc` register holds in a Faulted state, one value
for each draw (assumption log 3).  Nothing can be proved about it. -/
opaque Config.freePc : Nat → Word

/-- FREE VALUE (spec/92_eei_decisions.md D8): the quotient of the agnostic `DIV_FN` for a divisor other than
0 and 1 (assumption log 4).  Nothing can be proved about it. -/
opaque Config.freeQuotient : Word → Word → Word

end Sys2Proof
end

