-- ==== Sys2Proof/Machine/Params.lean ====
section
/-! DEFINITION. The constants the spec gives the core (spec/00_scope.md R7): the fixed addresses, the reset value
of `sp`, what unwritten memory holds, and the reference configuration. -/

namespace Sys2Proof.Machine

/-- `OUT_PORT` (R7, spec/20_memory.md R60, R61). -/
def outPort : Word := 0x00F00000#32

/-- `SP_RESET` (R7, spec/10_state.md R25). -/
def spReset : Word := 0x000FFFFF#32

/-- The reset vector: "execution begins at PC=0" (spec/70_reset_and_hazards.md R220, R222). -/
def pcReset : Word := 0x00000000#32

/-- What a byte of memory that neither the image nor a store has written reads as: 0
(spec/70_reset_and_hazards.md R220, R221: "zero-initialized"). -/
def unlistedByte : Byte := 0x00#8

/-- The trap code the trap table defines (spec/44_system.md R171). -/
def trapEmit : Word := 0x00000001#32

/-- The reference configuration (spec/00_scope.md R7): 16 MiB of memory, Z in bit 0, N in bit 1, unsigned
division.  The mask positions and `DIV_FN` are reference values only (assumption log 2 and 4). -/
def referenceConfig : Config where
  memSize := 16777216
  flagZMask := 0x01#8
  flagNMask := 0x02#8
  divFn := .unsigned

end Sys2Proof.Machine
end

