-- ==== Sys2Proof/Machine/State.lean ====
section
/-! DEFINITION. The state of one LC32 core, the tuple `(x[0..3], flags, pc, sp, M, status, out)` of
spec/10_state.md, as plain data; the reasons a step can stop; and the state after reset. -/

namespace Sys2Proof.Machine

/-- The general registers A to D, `x[0]` to `x[3]` (R20). -/
structure RegFile where
  a : Word
  b : Word
  c : Word
  d : Word
deriving DecidableEq, Repr

/-- The five fault causes of spec/60_exceptions.md R190. -/
inductive FaultCause where
  | unknownOpcode
  | badWidth
  | unknownTrap
  | divideByZero
  | addressOutOfRange
deriving DecidableEq, Repr

/-- The fault record `(cause, value, addr, opcode)` of R193.  `opcode` is `none` when the opcode byte itself could
not be fetched. -/
structure FaultRecord where
  cause : FaultCause
  value : Word
  addr : Word
  opcode : Option Byte
deriving DecidableEq, Repr

/-- The run state (R30): "State machine with states {Running, Halted, Faulted}". -/
inductive Status where
  | running
  | halted
  | faulted (record : FaultRecord)
deriving DecidableEq, Repr

/-- Memory `M` (R33): the bytes that differ from what an unwritten byte reads as, by rising address.  Its
operations and its canonical form stand in Sys2Proof/Machine/Ops.lean. -/
structure Memory where
  cells : List Host.Cell
deriving DecidableEq, Repr

/-- The state of the core, every part of R35. -/
structure State where
  /-- `x[0..3]` (R20). -/
  regs : RegFile
  /-- The 8-bit flag register (R27). -/
  flags : Byte
  /-- The program counter (R23). -/
  pc : Word
  /-- The stack pointer, which no instruction uses (R25, R26). -/
  sp : Word
  /-- Memory, instructions and data together (R33). -/
  mem : Memory
  /-- The run state, with the fault record (R30, R193). -/
  status : Status
  /-- The bytes emitted so far, oldest first (R32). -/
  out : List Byte
  /-- The parameters this core was built with (spec/00_scope.md R7); no step changes them. -/
  cfg : Config
  /-- The MODEL's own counter of draws of the free `pc` value a fault leaves (assumption log 3). -/
  draws : Nat
deriving DecidableEq, Repr

/-- Why a step has no next state.  The five faults of the spec are no `Fault` here: taking one is a next state whose
`status` is `Faulted(record)` (R192); a `Fault` says that a core in a terminal state was asked to step. -/
inductive Fault where
  /-- Raised by `step` in the Halted state: no step leaves it (R31).  Safe: the spec gives no next state
  (assumption log 1). -/
  | halted
  /-- Raised by `step` in the Faulted state, with the record the core reports: no step leaves it (R31, R192).
  Safe: the spec gives no next state (assumption log 1). -/
  | faulted (record : FaultRecord)
deriving DecidableEq, Repr

/-- Why an instruction has no meaning in the model. -/
inductive Refusal where
  /-- Raised by `exec` for an instruction of the table that has no meaning yet; no arm does so.  Safe: the run
  stops. -/
  | notModelled (mnemonic : String)
deriving DecidableEq, Repr

/-- What a meaning or a step answers. -/
abbrev Result := Host.Outcome State Fault Refusal

/-- The state after reset with the empty image, in the reference configuration
(spec/70_reset_and_hazards.md R220, R222).  `draws` is the model's own field (assumption log 3). -/
def State.reset : State where
  regs := ⟨0#32, 0#32, 0#32, 0#32⟩
  flags := 0x00#8
  pc := pcReset
  sp := spReset
  mem := ⟨[]⟩
  status := .running
  out := []
  cfg := referenceConfig
  draws := 0

end Sys2Proof.Machine
end

