-- ==== Sys2Proof/Machine/Ops.lean ====
section
/-! DEFINITION. The named operations over registers and memory (spec/00_scope.md R11, R12), and taking a fault as
ONE shared operation (spec/60_exceptions.md R192 to R195).  There is no return from a fault or a trap to write
beside it: a fault is terminal (R192), and BRK never leaves the instruction stream (R199). -/

namespace Sys2Proof.Machine

/-! Registers. -/

/-- `x[i]` (R11). -/
def RegFile.get (x : RegFile) : Reg → Word
  | .a => x.a
  | .b => x.b
  | .c => x.c
  | .d => x.d

/-- `x[i] <- v` (R11); no register is hardwired (spec/10_state.md R20). -/
def RegFile.set (x : RegFile) (r : Reg) (v : Word) : RegFile :=
  match r with
  | .a => { x with a := v }
  | .b => { x with b := v }
  | .c => { x with c := v }
  | .d => { x with d := v }

/-- Read a general register. -/
def State.reg (s : State) (r : Reg) : Word := s.regs.get r

/-- Write a general register. -/
def State.setReg (s : State) (r : Reg) (v : Word) : State := { s with regs := s.regs.set r v }

/-- `next = ia + 8`, modulo 2^32 (spec/00_scope.md R14, spec/10_state.md R24). -/
def State.nextPc (s : State) : Word := s.pc + 8#32

/-- `pc <- next`, the last action of a handler that completes (spec/30_encoding.md R91). -/
def State.advance (s : State) : State := { s with pc := s.nextPc }

/-- `pc <- target` (R91). -/
def State.jump (s : State) (target : Word) : State := { s with pc := target }

/-! Memory. -/

/-- The value listed for an address, or what an unlisted address reads as. -/
def lookupCell : List Host.Cell → Nat → Byte
  | [], _ => unlistedByte
  | (k, b) :: rest, a => if k = a then b else lookupCell rest a

/-- List a value for an address, keeping the canonical form: addresses rise, and a value equal to what an unlisted
address reads as is not listed. -/
def storeCell : List Host.Cell → Nat → Byte → List Host.Cell
  | [], a, v => if v = unlistedByte then [] else [(a, v)]
  | (k, b) :: rest, a, v =>
    if a < k then (if v = unlistedByte then (k, b) :: rest else (a, v) :: (k, b) :: rest)
    else if a = k then (if v = unlistedByte then rest else (a, v) :: rest)
    else (k, b) :: storeCell rest a v

/-- The canonical form: addresses strictly rising, and no entry equal to what an unlisted address reads as. -/
abbrev Memory.wf (m : Memory) : Prop :=
  m.cells.Pairwise (fun p q => p.1 < q.1) ∧ ∀ p ∈ m.cells, p.2 ≠ unlistedByte

/-- Every listed address is a byte of the array `M[0 .. size-1]` (spec/10_state.md R33). -/
abbrev Memory.within (m : Memory) (size : Nat) : Prop := ∀ p ∈ m.cells, p.1 < size

/-- `M[a]` (R11). -/
def Memory.read (m : Memory) (a : Nat) : Byte := lookupCell m.cells a

/-- `M[a] <- v`. -/
def Memory.write (m : Memory) (a : Nat) (v : Byte) : Memory := ⟨storeCell m.cells a v⟩

/-- The little-endian value of the `n` bytes at `a`: `sum over k in 0..n-1 of M[a + k] << (8*k)` (R12). -/
def Memory.readLE (m : Memory) (a : Nat) : Nat → Word
  | 0 => 0#32
  | n + 1 => (m.read a).setWidth 32 ||| (m.readLE (a + 1) n <<< 8)

/-- Write the low `n` bytes of `v` at `a`: `for k in 0..n-1: M[a + k] <- v[8k+7 : 8k]` (R12). -/
def Memory.writeLE (m : Memory) (a : Nat) : Nat → Word → Memory
  | 0, _ => m
  | n + 1, v => (m.write a (v.setWidth 8)).writeLE (a + 1) n (v >>> 8)

/-- Lay a list of bytes out from address `a` up. -/
def Memory.load (m : Memory) (a : Nat) : List Byte → Memory
  | [] => m
  | b :: bs => (m.write a b).load (a + 1) bs

/-! Faults. -/

/-- `raise F(v)` of spec/00_scope.md R13: a cause and the value R190 records for it. -/
structure Raise where
  cause : FaultCause
  value : Word
deriving DecidableEq, Repr

/-- `InRange(a, n) := (a + n : integer) <= MEM_SIZE` (R12): exact integers, no wrap. -/
abbrev State.inRange (s : State) (a : Word) (n : Nat) : Prop := a.toNat + n ≤ s.cfg.memSize

/-- `MemRead(a, n)` (R12): the whole access is checked before anything is read. -/
def memRead (s : State) (a : Word) (n : Nat) : Except Raise Word :=
  if s.inRange a n then .ok (s.mem.readLE a.toNat n) else .error ⟨.addressOutOfRange, a⟩

/-- `MemWrite(a, n, v)` (R12): the whole access is checked before anything is written. -/
def memWrite (s : State) (a : Word) (n : Nat) (v : Word) : Except Raise State :=
  if s.inRange a n then .ok { s with mem := s.mem.writeLE a.toNat n v }
  else .error ⟨.addressOutOfRange, a⟩

/-- Taking a fault (spec/60_exceptions.md R192 to R195): `status` becomes `Faulted(record)`; the faulting instruction
has written nothing; `pc` is unspecified, so it takes a free value (R194, assumption log 3). -/
def takeFault (r : FaultRecord) (s : State) : State :=
  { s with status := .faulted r, pc := Config.freePc s.draws, draws := s.draws + 1 }

/-- End a handler: its new state, or the fault it raised, recorded with the address and the opcode of the instruction
(R193).  A handler that raises leaves nothing of what it did (R13). -/
def finish (o : Opcode) (s : State) : Except Raise State → Result
  | .ok t => .next t
  | .error e => .next (takeFault ⟨e.cause, e.value, s.pc, some o.toByte⟩ s)

/-- `Emit(b)` (R11): append a byte to the output. -/
def State.emit (s : State) (b : Byte) : State := { s with out := s.out ++ [b] }

end Sys2Proof.Machine
end

