-- ==== Sys2Proof/Machine/Operands.lean ====
section
/-! DEFINITION. The operand forms of the ISA: the effective address, the access width and the quotient
(spec/30_encoding.md R84 to R87, spec/42_load_store.md R143, spec/41_arithmetic.md R127).  The other two operand
forms are the immediate, used as it stands (R87), and the register, read by `State.reg`. -/

namespace Sys2Proof.Machine

/-- `EA(imm, disp, scale) := imm + sext_32(disp) * zext_32(scale)`, modulo 2^32 (R86). -/
def effectiveAddress (imm : Word) (disp scale : Byte) : Word :=
  imm + disp.signExtend 32 * scale.setWidth 32

/-- The access width a scale byte names, in bytes: 1, 2 or 4, anything else raises BadWidth(scale)
(spec/42_load_store.md R140 to R142). -/
def accessWidth (scale : Byte) : Except Raise Nat :=
  if scale = 1#8 then .ok 1
  else if scale = 2#8 then .ok 2
  else if scale = 4#8 then .ok 4
  else .error ⟨.badWidth, scale.setWidth 32⟩

/-- The quotient of DIV for a divisor other than 0 (R127): the unsigned quotient rounded toward zero, or the agnostic
`DIV_FN`, of which only `DIV_FN(a, 1) = a` is known (assumption log 4). -/
def quotient (f : DivFn) (a b : Word) : Word :=
  match f with
  | .unsigned => a / b
  | .agnostic => if b = 1#32 then a else Config.freeQuotient a b

end Sys2Proof.Machine
end

