-- ==== Sys2Proof/Machine/Arithmetic.lean ====
section
/-! DEFINITION. Register-immediate arithmetic: LD reg,imm, ADD, SUB, MUL, DIV (spec/41_arithmetic.md).  None reads or
writes `flags`. -/

namespace Sys2Proof.Machine

/-- LD reg,imm (R120). -/
def execLdImm (r : Reg) (imm : Word) (s : State) : Result :=
  finish .ldImm s (.ok (s.setReg r imm).advance)

/-- ADD reg,imm (R121), wrapping. -/
def execAdd (r : Reg) (imm : Word) (s : State) : Result :=
  finish .add s (.ok (s.setReg r (s.reg r + imm)).advance)

/-- SUB reg,imm (R122), wrapping; it sets no flag. -/
def execSub (r : Reg) (imm : Word) (s : State) : Result :=
  finish .sub s (.ok (s.setReg r (s.reg r - imm)).advance)

/-- MUL reg,imm (R123), the low 32 bits of the product. -/
def execMul (r : Reg) (imm : Word) (s : State) : Result :=
  finish .mul s (.ok (s.setReg r (s.reg r * imm)).advance)

/-- DIV reg,imm (R124): DivideByZero(0) when the divisor is 0, else the quotient of R127. -/
def execDiv (r : Reg) (imm : Word) (s : State) : Result :=
  finish .div s
    (if imm = 0#32 then .error ⟨.divideByZero, 0#32⟩
     else .ok (s.setReg r (quotient s.cfg.divFn (s.reg r) imm)).advance)

end Sys2Proof.Machine
end

