-- ==== Sys2Proof/Machine/Flags.lean ====
section
/-! DEFINITION. The flag computations: the only write to `flags`, CPR's, and its only read, BRC's
(spec/10_state.md R28). -/

namespace Sys2Proof.Machine

/-- The flags after a compare whose difference is `d` (spec/43_compare.md R160): Z is ORed in when `d` is 0, N when
`d[31]` is 1, and nothing is ever cleared. -/
def compareFlags (c : Config) (d : Word) (flags : Byte) : Byte :=
  flags ||| (if d = 0#32 then c.flagZMask else 0#8) ||| (if d.msb then c.flagNMask else 0#8)

/-- BRC's condition `(flags & rs) != 0` (spec/40_control.md R111). -/
def branchTaken (flags mask : Byte) : Bool := (flags &&& mask) ≠ 0#8

end Sys2Proof.Machine
end

