-- ==== Sys2Proof/Machine/Compare.lean ====
section
/-! DEFINITION. Compare: CPR (spec/43_compare.md). -/

namespace Sys2Proof.Machine

/-- CPR reg,imm (R160): the flags of the wrapped difference `x[r] - imm`; the register is not written. -/
def execCpr (r : Reg) (imm : Word) (s : State) : Result :=
  finish .cpr s (.ok { s with flags := compareFlags s.cfg (s.reg r - imm) s.flags }.advance)

end Sys2Proof.Machine
end

