-- ==== Sys2Proof/Machine/Control.lean ====
section
/-! DEFINITION. Control transfer: BR and BRC (spec/40_control.md). -/

namespace Sys2Proof.Machine

/-- BR (R110): `pc <- EA(imm, disp, scale)`.  The scale is any value, and the target is not checked here. -/
def execBr (addr : Word) (disp scale : Byte) (s : State) : Result :=
  finish .br s (.ok (s.jump (effectiveAddress addr disp scale)))

/-- BRC (R111): taken when the mask meets `flags`, else `pc <- next`.  The flags it tests stay set. -/
def execBrc (mask : Byte) (addr : Word) (disp scale : Byte) (s : State) : Result :=
  finish .brc s (.ok (if branchTaken s.flags mask then s.jump (effectiveAddress addr disp scale) else s.advance))

end Sys2Proof.Machine
end

