-- ==== Sys2Proof/Machine/LoadStore.lean ====
section
/-! DEFINITION. Loads and stores: LD reg,[addr], LDR and ST (spec/42_load_store.md).  The width is checked first, then
the address (spec/60_exceptions.md R196). -/

namespace Sys2Proof.Machine

/-- Load `w` bytes from `a` into `x[r]`, zero-extended, where the scale byte names `w` (R140, R141). -/
def loadFrom (r : Reg) (a : Word) (scale : Byte) (s : State) : Except Raise State := do
  let w ← accessWidth scale
  let v ← memRead s a w
  return (s.setReg r v).advance

/-- Store the low `w` bytes of `v` at `a`, where the scale byte names `w` (R142). -/
def storeTo (a : Word) (scale : Byte) (v : Word) (s : State) : Except Raise State := do
  let w ← accessWidth scale
  let t ← memWrite s a w v
  return t.advance

/-- LD reg,[addr] (R140): the scale is both the width and the multiplier of the displacement. -/
def execLdMem (r : Reg) (addr : Word) (disp scale : Byte) (s : State) : Result :=
  finish .ldMem s (loadFrom r (effectiveAddress addr disp scale) scale s)

/-- LDR reg,[reg] (R141): the address is `x[r2]`, read before `x[r1]` is written. -/
def execLdr (r1 r2 : Reg) (scale : Byte) (s : State) : Result :=
  finish .ldr s (loadFrom r1 (s.reg r2) scale s)

/-- ST [addr],reg (R142): all or nothing. -/
def execSt (r : Reg) (addr : Word) (disp scale : Byte) (s : State) : Result :=
  finish .st s (storeTo (effectiveAddress addr disp scale) scale (s.reg r) s)

end Sys2Proof.Machine
end

