-- ==== Sys2Proof/Machine/System.lean ====
section
/-! DEFINITION. System instructions and the trap table: STP and BRK (spec/44_system.md). -/

namespace Sys2Proof.Machine

/-- STP (R170): `pc <- next`, then `status <- Halted`. -/
def execStp (s : State) : Result :=
  finish .stp s (.ok { s.advance with status := .halted })

/-- Trap 1 (R171, R172): read the byte at the output port and emit it as it stands. -/
def emitPort (s : State) : Except Raise State := do
  let b ← memRead s outPort 1
  return s.emit (b.setWidth 8)

/-- The trap handler table (R171): one code has an effect, every other raises UnknownTrap(code). -/
def trapTable (code : Word) (s : State) : Except Raise State :=
  if code = trapEmit then emitPort s else .error ⟨.unknownTrap, code⟩

/-- BRK (R172): perform the effect the trap table gives the code, and continue at `next`. -/
def execBrk (code : Word) (s : State) : Result :=
  finish .brk s (do
    let t ← trapTable code s
    return t.advance)

end Sys2Proof.Machine
end

