-- ==== Sys2Proof/Machine/Dispatch.lean ====
section
/-! DEFINITION. The dispatch multiplexer (spec/30_encoding.md R93): one arm per opcode, each one call of its handler.
A handler runs on any state; that the core is Running is what `step` checks (R90). -/

namespace Sys2Proof.Machine

def exec (i : Instr) (s : State) : Host.Outcome State Fault Refusal :=
  match i with
  | .br addr disp scale => Sys2Proof.Machine.execBr addr disp scale s
  | .brc mask addr disp scale => Sys2Proof.Machine.execBrc mask addr disp scale s
  | .ldImm r imm => Sys2Proof.Machine.execLdImm r imm s
  | .add r imm => Sys2Proof.Machine.execAdd r imm s
  | .sub r imm => Sys2Proof.Machine.execSub r imm s
  | .mul r imm => Sys2Proof.Machine.execMul r imm s
  | .div r imm => Sys2Proof.Machine.execDiv r imm s
  | .ldMem r addr disp scale => Sys2Proof.Machine.execLdMem r addr disp scale s
  | .ldr r1 r2 scale => Sys2Proof.Machine.execLdr r1 r2 scale s
  | .st r addr disp scale => Sys2Proof.Machine.execSt r addr disp scale s
  | .cpr r imm => Sys2Proof.Machine.execCpr r imm s
  | .stp => Sys2Proof.Machine.execStp s
  | .brk code => Sys2Proof.Machine.execBrk code s

end Sys2Proof.Machine
end

