-- ==== Sys2Proof/Machine/Fetch.lean ====
section
/-! DEFINITION. Fetching and decoding the next instruction (spec/30_encoding.md R90), and preloading an image
(spec/70_reset_and_hazards.md R221). -/

namespace Sys2Proof.Machine

/-- The operand block of the instruction at `ia` (R90); the caller has checked that it is in memory. -/
def fetchOperands (m : Memory) (ia : Nat) : OperandBlock where
  rs := m.read (ia + 1)
  disp := m.read (ia + 2)
  scale := m.read (ia + 3)
  imm := leWord (m.read (ia + 4)) (m.read (ia + 5)) (m.read (ia + 6)) (m.read (ia + 7))

/-- The fetch and decode of one step (R90), with its three faults in their order (spec/60_exceptions.md R196): the opcode
byte is outside memory, it is illegal, the operand block runs past memory.  The operand block of an illegal opcode
is not read. -/
def fetch (s : State) : Except FaultRecord Instr :=
  if s.inRange s.pc 1 then
    match Opcode.ofByte (s.mem.read s.pc.toNat) with
    | none =>
      .error ⟨.unknownOpcode, (s.mem.read s.pc.toNat).setWidth 32, s.pc, some (s.mem.read s.pc.toNat)⟩
    | some o =>
      if s.inRange s.pc 8 then .ok (assemble o (fetchOperands s.mem s.pc.toNat))
      else .error ⟨.addressOutOfRange, s.pc + 1#32, s.pc, some (s.mem.read s.pc.toNat)⟩
  else .error ⟨.addressOutOfRange, s.pc, s.pc, none⟩

/-- A new core with an image preloaded (R220): the image at address 0 and zeros behind it, everything else at its reset
value, and the run begins (R222). -/
def preloaded (c : Config) (image : List Byte) : State :=
  { State.reset with cfg := c, mem := (Memory.mk []).load 0 image }

/-- Preload an image (R221).  One longer than `MEM_SIZE` is refused: no core is built. -/
def preload (c : Config) (image : List Byte) : Option State :=
  if image.length ≤ c.memSize then some (preloaded c image) else none

/-- Place eight bytes where the next fetch reads them, and leave the core running; where fewer than eight bytes of
memory remain at `pc` there is no such place, and memory stays as it is (assumption log 5). -/
def placeAtPc (s : State) (bytes : List Byte) : State :=
  if s.inRange s.pc 8 then { s with mem := s.mem.load s.pc.toNat (bytes.take 8), status := .running } else s

end Sys2Proof.Machine
end

