-- ==== Sys2Proof/Machine/Step.lean ====
section
/-! DEFINITION. One step of the engine (spec/30_encoding.md R90): fetch and decode, then the handler.  A step happens only
while the core is Running; Halted and Faulted are terminal (spec/10_state.md R31), so from them there is no next
state (assumption log 1). -/

namespace Sys2Proof.Machine

def step (s : State) : Host.Outcome State Fault Refusal :=
  match s.status with
  | .halted => .fault .halted
  | .faulted r => .fault (.faulted r)
  | .running =>
    match fetch s with
    | .ok i => exec i s
    | .error r => .next (takeFault r s)

/-- The state with a table word placed where `step` fetches its next instruction (assumption log 5). -/
def State.withFetchWord (s : State) (nbits w : Nat) : State := placeAtPc s (wordBytes (w % 2 ^ nbits))

end Sys2Proof.Machine
end

