-- ==== Sys2Proof/Machine/Stack.lean ====
section
/-! DEFINITION. The push and pop of spec/10_state.md R25 and R26.  NO INSTRUCTION REACHES THEM: the canonical set has no
stack opcode (spec/90_conflicts.md C4); R26 gives them "only so that a later edition that adds stack opcodes can be
checked against them". -/

namespace Sys2Proof.Machine

/-- `Push(v): sp <- sp - 4; MemWrite(sp, 4, v)` (R26). -/
def push (v : Word) (s : State) : Except Raise State :=
  memWrite { s with sp := s.sp - 4#32 } (s.sp - 4#32) 4 v

/-- `Pop(): v <- MemRead(sp, 4); sp <- sp + 4; return v` (R26). -/
def pop (s : State) : Except Raise (Word × State) := do
  let v ← memRead s s.sp 4
  return (v, { s with sp := s.sp + 4#32 })

end Sys2Proof.Machine
end

