-- ==== Sys2Proof/Safety.lean ====
section
/-! DEFINITION. The terms the statements use: what a step leaves unchanged, what a fault leaves, when a fault is due,
the invariant of a core, and how a run ends. -/

namespace Sys2Proof.Machine

/-! Frames. -/

/-- The parts of the state an instruction may write, `pc` apart (spec/10_state.md R35). -/
inductive StatePart where
  | reg (r : Reg)
  | flags
  | mem
  | out
  | status
deriving DecidableEq, Repr

/-- From `s` to `t` nothing changes but the parts named and `pc`.  No instruction writes `sp` (R26), the parameters, or
the model's own counter. -/
structure Frame (parts : List StatePart) (s t : State) : Prop where
  regs : ∀ q, StatePart.reg q ∉ parts → t.reg q = s.reg q
  flags : StatePart.flags ∉ parts → t.flags = s.flags
  mem : StatePart.mem ∉ parts → ∀ a, t.mem.read a = s.mem.read a
  out : StatePart.out ∉ parts → t.out = s.out
  status : StatePart.status ∉ parts → t.status = s.status
  sp : t.sp = s.sp
  cfg : t.cfg = s.cfg
  draws : t.draws = s.draws

/-- "Apart from `pc` and `status`, the Faulted state equals the state before the faulting step"
(spec/60_exceptions.md R195); the model's own counter is no part of the spec's state. -/
structure Untouched (s t : State) : Prop where
  regs : ∀ q, t.reg q = s.reg q
  flags : t.flags = s.flags
  sp : t.sp = s.sp
  mem : ∀ a, t.mem.read a = s.mem.read a
  out : t.out = s.out
  cfg : t.cfg = s.cfg

/-- The outcome of an instruction at `s.pc` is the Faulted state with this cause, value and opcode (R193), everything
else as it was (R195). -/
def FaultsWith (o : Result) (s : State) (cause : FaultCause) (value : Word) (op : Option Byte) : Prop :=
  ∃ t, o = .next t ∧ t.status = .faulted ⟨cause, value, s.pc, op⟩ ∧ Untouched s t

/-! Register use (spec/10_state.md R22). -/

/-- The general register an instruction writes, if any (R22). -/
def regWritten : Instr → Option Reg
  | .br _ _ _ => none
  | .brc _ _ _ _ => none
  | .ldImm r _ => some r
  | .add r _ => some r
  | .sub r _ => some r
  | .mul r _ => some r
  | .div r _ => some r
  | .ldMem r _ _ _ => some r
  | .ldr r1 _ _ => some r1
  | .st _ _ _ _ => none
  | .cpr _ _ => none
  | .stp => none
  | .brk _ => none

/-- The general register an instruction reads, if any (R22). -/
def regRead : Instr → Option Reg
  | .br _ _ _ => none
  | .brc _ _ _ _ => none
  | .ldImm _ _ => none
  | .add r _ => some r
  | .sub r _ => some r
  | .mul r _ => some r
  | .div r _ => some r
  | .ldMem _ _ _ _ => none
  | .ldr _ r2 _ => some r2
  | .st r _ _ _ => some r
  | .cpr r _ => some r
  | .stp => none
  | .brk _ => none

/-! When a fault is due. -/

/-- The opcode byte at `pc`. -/
abbrev State.opAt (s : State) : Byte := s.mem.read s.pc.toNat

/-- The scale byte at `pc + 3` (spec/30_encoding.md R80). -/
abbrev State.scaleAt (s : State) : Byte := s.mem.read (s.pc.toNat + 3)

/-- The displacement byte at `pc + 2` (R80). -/
abbrev State.dispAt (s : State) : Byte := s.mem.read (s.pc.toNat + 2)

/-- The immediate field at `pc + 4` (R80). -/
abbrev State.immAt (s : State) : Word :=
  leWord (s.mem.read (s.pc.toNat + 4)) (s.mem.read (s.pc.toNat + 5)) (s.mem.read (s.pc.toNat + 6))
    (s.mem.read (s.pc.toNat + 7))

/-- The thirteen opcode bytes (R95), written out. -/
def opcodeBytes : List Byte :=
  [0x20#8, 0x21#8, 0x40#8, 0x41#8, 0x42#8, 0x43#8, 0x44#8, 0x50#8, 0x51#8, 0x58#8, 0xC0#8, 0xF0#8, 0xF1#8]

/-- The fault the instruction at `pc` meets, in the words of spec/60_exceptions.md R190 and in the order of R196, read off
the bytes of memory.  No two cases of it hold together. -/
inductive FaultDue (s : State) : FaultRecord → Prop where
  /-- R196, 1: the opcode byte is outside memory. -/
  | opcodeOutside : s.cfg.memSize ≤ s.pc.toNat → FaultDue s ⟨.addressOutOfRange, s.pc, s.pc, none⟩
  /-- R196, 2: the opcode is illegal; the operand block is not read. -/
  | unknownOpcode : s.pc.toNat < s.cfg.memSize → s.opAt ∉ opcodeBytes →
      FaultDue s ⟨.unknownOpcode, s.opAt.setWidth 32, s.pc, some s.opAt⟩
  /-- R196, 3: the operand block runs past memory. -/
  | operandsOutside : s.pc.toNat < s.cfg.memSize → s.opAt ∈ opcodeBytes → s.cfg.memSize < s.pc.toNat + 8 →
      FaultDue s ⟨.addressOutOfRange, s.pc + 1#32, s.pc, some s.opAt⟩
  /-- R196, 4: LD reg,[addr], LDR, ST with a scale that is no width. -/
  | badWidth : s.pc.toNat + 8 ≤ s.cfg.memSize → s.opAt ∈ [0x50#8, 0x51#8, 0x58#8] →
      s.scaleAt ∉ [1#8, 2#8, 4#8] →
      FaultDue s ⟨.badWidth, s.scaleAt.setWidth 32, s.pc, some s.opAt⟩
  /-- R196, 4: LD reg,[addr] or ST whose access at the effective address runs past memory. -/
  | dataOutside : s.pc.toNat + 8 ≤ s.cfg.memSize → s.opAt ∈ [0x50#8, 0x58#8] → s.scaleAt ∈ [1#8, 2#8, 4#8] →
      s.cfg.memSize < (effectiveAddress s.immAt s.dispAt s.scaleAt).toNat + s.scaleAt.toNat →
      FaultDue s ⟨.addressOutOfRange, effectiveAddress s.immAt s.dispAt s.scaleAt, s.pc, some s.opAt⟩
  /-- R196, 4: LDR whose access at `x[reg2]` runs past memory. -/
  | indirectOutside (r2 : Reg) : s.pc.toNat + 8 ≤ s.cfg.memSize → s.opAt = 0x51#8 →
      s.scaleAt ∈ [1#8, 2#8, 4#8] → r2.ordinal = (s.mem.read (s.pc.toNat + 1)).toNat / 4 % 4 →
      s.cfg.memSize < (s.reg r2).toNat + s.scaleAt.toNat →
      FaultDue s ⟨.addressOutOfRange, s.reg r2, s.pc, some s.opAt⟩
  /-- R196, 4: DIV by 0. -/
  | divideByZero : s.pc.toNat + 8 ≤ s.cfg.memSize → s.opAt = 0x44#8 → s.immAt = 0#32 →
      FaultDue s ⟨.divideByZero, 0#32, s.pc, some s.opAt⟩
  /-- R196, 4: BRK with a code the trap table does not hold. -/
  | unknownTrap : s.pc.toNat + 8 ≤ s.cfg.memSize → s.opAt = 0xF1#8 → s.immAt ≠ 1#32 →
      FaultDue s ⟨.unknownTrap, s.immAt, s.pc, some s.opAt⟩
  /-- R196, 4: trap 1 of a core whose memory does not reach the output port. -/
  | portOutside : s.pc.toNat + 8 ≤ s.cfg.memSize → s.opAt = 0xF1#8 → s.immAt = 1#32 →
      s.cfg.memSize ≤ 0x00F00000 →
      FaultDue s ⟨.addressOutOfRange, 0x00F00000#32, s.pc, some s.opAt⟩

/-! The invariant of a core. -/

/-- What holds of every core, at reset and after every step: the parameters are legal (spec/00_scope.md R7), memory is
in its canonical form and lists bytes of the array only (spec/10_state.md R33), and the six bits of `flags` other than
Z and N are 0 (R28). -/
structure State.Inv (s : State) : Prop where
  cfg : s.cfg.legal = true
  memWf : s.mem.wf
  memWithin : s.mem.within s.cfg.memSize
  flags : s.flags &&& ~~~(s.cfg.flagZMask ||| s.cfg.flagNMask) = 0#8

/-! The end of a run. -/

/-- The process exit code the host maps the end of a run to (spec/60_exceptions.md R207); none while the run goes on. -/
def exitCode : Status → Option Nat
  | .running => none
  | .halted => some 0
  | .faulted _ => some 1

end Sys2Proof.Machine
end

