-- ==== Sys2Proof/Certificates/Slice0/Obligations.lean ====
section
/-! DEFINITION. The statements about the LC32 core, for the provers.  A result is given in exact integers (`toNat`), not in
the model's own expressions, wherever the rule does so. -/

namespace Sys2Proof.Certificates

open Sys2Proof.Machine

/-- The eight bytes `op rs disp scale i0 i1 i2 i3`, whatever stands in the ignored fields, decode to the instruction
`mk r imm`, `r` the register with ordinal `rs[1:0]` and `imm` the little-endian immediate: sub-format RI
(spec/30_encoding.md R81, R83, R87).  That the ignored fields have no effect (R88) is the spec's own decision D14
(log 15). -/
def EncodedRI (op : Byte) (mk : Reg → Word → Instr) : Prop :=
  ∀ (rs disp scale i0 i1 i2 i3 : Byte) (rest : List Byte) (r : Reg), r.ordinal = rs.toNat % 4 →
    decode (op :: rs :: disp :: scale :: i0 :: i1 :: i2 :: i3 :: rest) = .ok (mk r (i3 ++ i2 ++ i1 ++ i0), rest)

/-- Sub-format RM: as RI, with the displacement and the scale used. -/
def EncodedRM (op : Byte) (mk : Reg → Word → Byte → Byte → Instr) : Prop :=
  ∀ (rs disp scale i0 i1 i2 i3 : Byte) (rest : List Byte) (r : Reg), r.ordinal = rs.toNat % 4 →
    decode (op :: rs :: disp :: scale :: i0 :: i1 :: i2 :: i3 :: rest)
      = .ok (mk r (i3 ++ i2 ++ i1 ++ i0) disp scale, rest)

/-- The instruction completes: a next state that still runs at `pc + 8`, with only the named parts changed. -/
def CompletesWith (o : Result) (s : State) (parts : List StatePart) (post : State → Prop) : Prop :=
  ∃ t, o = .next t ∧ t.pc = s.pc + 8#32 ∧ Frame parts s t ∧ post t

/-- The core runs `k` steps from a preloaded image and is then in `t`. -/
def Reaches (c : Config) (image : List Byte) (k : Nat) (t : State) : Prop :=
  ∃ s, preload c image = some s ∧ Sys2Proof.core.run k s = .next t

/-- The two outcomes are the same in everything a claim may compare: the `pc` of a Faulted state is unspecified
(spec/60_exceptions.md R194), so it is left out there. -/
def SameOutcome (t u : State) : Prop :=
  { t with pc := u.pc } = u ∧ ((∀ rec, u.status ≠ .faulted rec) → t.pc = u.pc)

end Sys2Proof.Certificates

open Sys2Proof Sys2Proof.Machine Sys2Proof.Certificates

/-! Reset and preload. -/

/-- R220: preloading an image of any length up to `MEM_SIZE` gives the reset state: the image bytes at addresses 0 to n-1,
zeros behind them, and every register, flag, `pc`, `sp` and status at the value of R220's table.  That the output is
empty is the spec's own decision D18 (log 14). -/
def Obligations.PreloadBuildsTheResetState : Prop :=
  ∀ (c : Config) (image : List Byte), image.length ≤ c.memSize →
    ∃ s, preload c image = some s ∧ (∀ r, s.reg r = 0#32) ∧ s.flags = 0x00#8 ∧ s.pc = 0x00000000#32 ∧
      s.sp = 0x000FFFFF#32 ∧ s.status = .running ∧ s.out = [] ∧ s.cfg = c ∧
      (∀ k b, image[k]? = some b → s.mem.read k = b) ∧
      (∀ a, image.length ≤ a → s.mem.read a = 0x00#8)

/-- The edges of preload (the spec's own decision D21): an image longer than `MEM_SIZE` is refused, and a core with the
empty image faults at its first fetch, UnknownOpcode(0x00) at address 0. -/
def Obligations.OversizedImageIsRefusedAndEmptyOneFaults : Prop :=
  (∀ (c : Config) (image : List Byte), c.memSize < image.length → preload c image = none) ∧
  (∀ (c : Config) (s : State), 1 ≤ c.memSize → preload c [] = some s →
    s.pc = 0#32 ∧ FaultsWith (step s) s .unknownOpcode 0#32 (some 0x00#8))

/-- The fixed reset state is the preload of the empty image in the reference configuration, which is legal.  The flag masks
and `DIV_FN` are reference values only (the spec's own decisions D3 and D8, log 2 and 4), the empty image is the
model's choice (log 5), and that the output is empty is the spec's own decision D18 (log 14). -/
def Obligations.ResetIsTheEmptyImage : Prop :=
  preload State.reset.cfg [] = some State.reset ∧ State.reset.cfg.legal = true ∧
    State.reset.cfg.memSize = 0x01000000 ∧ State.reset.cfg.flagZMask = 0x01#8 ∧
    State.reset.cfg.flagNMask = 0x02#8 ∧ State.reset.cfg.divFn = .unsigned ∧
    (∀ r, State.reset.reg r = 0#32) ∧ State.reset.flags = 0x00#8 ∧ State.reset.pc = 0#32 ∧
    State.reset.sp = 0x000FFFFF#32 ∧ State.reset.status = .running ∧ State.reset.out = [] ∧
    ∀ a, State.reset.mem.read a = 0x00#8

/-! Encoding. -/

/-- A few words of the spec, byte by byte (V2, W4, V54, V60, V79 and the §8 example), decode to what they stand for. -/
def Obligations.SpecWordsDecode : Prop :=
  decode [0x40#8, 0x00#8, 0x00#8, 0x00#8, 0x01#8, 0x00#8, 0x00#8, 0x00#8] = .ok (.ldImm .a 1#32, []) ∧
  decode [0x20#8, 0x00#8, 0x10#8, 0x08#8, 0x00#8, 0x02#8, 0x00#8, 0x00#8] = .ok (.br 0x200#32 16#8 8#8, []) ∧
  decode [0x21#8, 0x01#8, 0x02#8, 0x04#8, 0x00#8, 0x02#8, 0x00#8, 0x00#8] = .ok (.brc 1#8 0x200#32 2#8 4#8, []) ∧
  decode [0x51#8, 0x09#8, 0x55#8, 0x01#8, 0x99#8, 0x09#8, 0x00#8, 0x00#8] = .ok (.ldr .b .c 1#8, []) ∧
  decode [0x58#8, 0x03#8, 0xFC#8, 0x04#8, 0x10#8, 0x30#8, 0x00#8, 0x00#8] = .ok (.st .d 0x3010#32 0xFC#8 4#8, []) ∧
  decode [0xF1#8, 0x00#8, 0x00#8, 0x00#8, 0x01#8, 0x00#8, 0x00#8, 0x01#8] = .ok (.brk 0x01000001#32, [])

/-- Decode and encode agree: for every instruction, with every operand at every value, and whatever bytes follow. -/
def Obligations.DecodeOfEncodeIsTheInstruction : Prop :=
  ∀ (i : Instr) (rest : List Byte), decode (encode i ++ rest) = .ok (i, rest)

/-- The other direction, with ignored fields (the spec's own decision D14): eight bytes decode to `i` exactly when, on the bits `i`'s opcode uses, they are the
encoding of `i`.  So no used bit is dropped, and an ignored bit may hold any value and has no effect. -/
def Obligations.DecodeReadsExactlyTheUsedBits : Prop :=
  ∀ (bytes rest : List Byte) (i : Instr), bytes.length = 8 →
    (decode (bytes ++ rest) = .ok (i, rest) ↔ List.zipWith (· &&& ·) bytes i.opcode.usedBits = encode i)

/-- Decoding takes exactly eight bytes or fails by name: there is no opcode byte, the opcode byte is none of the
thirteen (whatever follows), or the operand block is cut. -/
def Obligations.DecodeTakesEightBytesOrFailsByName : Prop :=
  ∀ bytes : List Byte,
    (∀ i rest, decode bytes = .ok (i, rest) → bytes.length = rest.length + 8 ∧ bytes.drop 8 = rest) ∧
    (decode bytes = .error .noOpcode ↔ bytes = []) ∧
    (∀ op, decode bytes = .error (.unknownOpcode op) ↔ bytes.head? = some op ∧ op ∉ opcodeBytes) ∧
    (∀ op, decode bytes = .error (.operandBlockCut op) ↔
      bytes.head? = some op ∧ op ∈ opcodeBytes ∧ bytes.length < 8)

/-- R94: 243 of the 256 opcode bytes are illegal, and fetching one from memory faults with UnknownOpcode, which reports the
byte and the instruction's address. -/
def Obligations.IllegalOpcodesFault : Prop :=
  ((List.range 256).filter (fun n => !opcodeBytes.contains (BitVec.ofNat 8 n))).length = 243 ∧
  ∀ (s : State) (op : Byte), s.status = .running → s.pc.toNat < s.cfg.memSize → s.mem.read s.pc.toNat = op →
    op ∉ opcodeBytes →
    ∃ t, step s = .next t ∧ t.status = .faulted ⟨.unknownOpcode, op.setWidth 32, s.pc, some op⟩

/-! The engine. -/

/-- The engine's step: when the core is Running and the eight bytes at `pc` lie in memory and decode to `i`, the step is `exec i` of the
very state: `pc` is still `ia` there, and nothing else is done around it. -/
def Obligations.StepRunsTheDecodedInstruction : Prop :=
  ∀ (s : State) (i : Instr), s.status = .running → s.pc.toNat + 8 ≤ s.cfg.memSize →
    decode ((List.range 8).map (fun k => s.mem.read (s.pc.toNat + k))) = .ok (i, []) →
    step s = exec i s

/-- The effective address is the exact sum of the base and the product of the signed displacement and the unsigned scale,
modulo 2^32, and the product lies in -32640 .. 32385.  The unsigned scale and the wrap are the spec's own decision D5
(log 9), the two's complement displacement is its general knowledge G3 (log 16). -/
def Obligations.EffectiveAddressIsTheWrappedSum : Prop :=
  ∀ (imm : Word) (disp scale : Byte),
    ((effectiveAddress imm disp scale).toNat : Int) = ((imm.toNat : Int) + disp.toInt * scale.toNat) % 2 ^ 32 ∧
    -32640 ≤ disp.toInt * (scale.toNat : Int) ∧ disp.toInt * (scale.toNat : Int) ≤ 32385

/-- Both memory primitives check the whole access on exact integers before touching anything (the spec's own decision D4,
log 11), and are little-endian. -/
def Obligations.MemoryPrimitivesCheckTheWholeAccess : Prop :=
  (∀ (s : State) (a v : Word) (n : Nat), s.cfg.memSize < a.toNat + n →
    memRead s a n = .error ⟨.addressOutOfRange, a⟩ ∧ memWrite s a n v = .error ⟨.addressOutOfRange, a⟩) ∧
  (∀ (s : State) (a : Word) (n : Nat), n ≤ 4 → a.toNat + n ≤ s.cfg.memSize →
    ∃ x, memRead s a n = .ok x ∧
      x.toNat = ∑ k ∈ Finset.range n, (s.mem.read (a.toNat + k)).toNat * 256 ^ k) ∧
  (∀ (s : State) (a v : Word) (n : Nat), n = 1 ∨ n = 2 ∨ n = 4 → a.toNat + n ≤ s.cfg.memSize → s.mem.wf →
    ∃ t, memWrite s a n v = .ok t ∧
      (∀ k, k < n → (t.mem.read (a.toNat + k)).toNat = v.toNat / 256 ^ k % 256) ∧
      (∀ b, b < a.toNat ∨ a.toNat + n ≤ b → t.mem.read b = s.mem.read b) ∧ Frame [.mem] s t ∧ t.pc = s.pc)

/-- After a 4-byte write, 1-byte and 2-byte reads inside it see its little-endian bytes. -/
def Obligations.MixedWidthReadsSeeTheBytes : Prop :=
  ∀ (s t : State) (a : Word) (v : Word), s.mem.wf → memWrite s a 4 v = .ok t →
    (∀ k : Nat, k < 4 → ∀ b : Word, b.toNat = a.toNat + k →
      memRead t b 1 = .ok ((v.extractLsb' (8 * k) 8).setWidth 32)) ∧
    (∀ b : Word, b.toNat = a.toNat + 1 → memRead t b 2 = .ok ((v.extractLsb' 8 16).setWidth 32)) ∧
    (∀ (b : Word) (n : Nat) (x : Word), n = 1 ∨ n = 2 ∨ n = 4 → memRead t b n = .ok x →
      x.toNat = ∑ k ∈ Finset.range n, (t.mem.read (b.toNat + k)).toNat * 256 ^ k)

/-! The thirteen instructions: encoding, result, frame, completion and faults. -/

/-- BR sets `pc` to the effective address, whatever it is, and changes nothing else; a target outside memory faults at the
next fetch; and a BR to its own address is a loop that never ends.  The address arithmetic and that fault are the
spec's own decisions D5 and D4 (log 9 and 11), the ignored select byte is D14 (log 15). -/
def Obligations.BrJumpsToTheEffectiveAddress : Prop :=
  (∀ (rs disp scale i0 i1 i2 i3 : Byte) (rest : List Byte),
    decode (0x20#8 :: rs :: disp :: scale :: i0 :: i1 :: i2 :: i3 :: rest)
      = .ok (.br (i3 ++ i2 ++ i1 ++ i0) disp scale, rest)) ∧
  (∀ (addr : Word) (disp scale : Byte) (s : State),
    ∃ t, exec (.br addr disp scale) s = .next t ∧
      (t.pc.toNat : Int) = ((addr.toNat : Int) + disp.toInt * scale.toNat) % 2 ^ 32 ∧ Frame [] s t ∧
      (s.status = .running → s.cfg.memSize ≤ t.pc.toNat → FaultsWith (step t) t .addressOutOfRange t.pc none)) ∧
  (∀ (addr : Word) (disp scale : Byte) (s : State) (k : Nat), s.status = .running →
    fetch s = .ok (.br addr disp scale) → effectiveAddress addr disp scale = s.pc →
    Sys2Proof.core.run k s = .next s)

/-- BRC takes the branch when its whole mask byte meets the flags, else goes on at `ia + 8`; it changes nothing else, the
flags neither.  Where the six undefined bits are 0 (the invariant), a mask of those bits alone is never taken, and
mask 0xFF is taken when Z or N is set.  The address arithmetic and the fault at a target outside memory are the spec's
own decisions D5 and D4 (log 9 and 11). -/
def Obligations.BrcBranchesOnTheMaskedFlags : Prop :=
  (∀ (rs disp scale i0 i1 i2 i3 : Byte) (rest : List Byte),
    decode (0x21#8 :: rs :: disp :: scale :: i0 :: i1 :: i2 :: i3 :: rest)
      = .ok (.brc rs (i3 ++ i2 ++ i1 ++ i0) disp scale, rest)) ∧
  ∀ (mask : Byte) (addr : Word) (disp scale : Byte) (s : State),
    ∃ t, exec (.brc mask addr disp scale) s = .next t ∧ Frame [] s t ∧
      (s.flags &&& mask ≠ 0#8 → (t.pc.toNat : Int) = ((addr.toNat : Int) + disp.toInt * scale.toNat) % 2 ^ 32) ∧
      (s.flags &&& mask = 0#8 → t.pc = s.pc + 8#32) ∧
      (s.status = .running → s.cfg.memSize ≤ t.pc.toNat → FaultsWith (step t) t .addressOutOfRange t.pc none) ∧
      (s.Inv → mask &&& (s.cfg.flagZMask ||| s.cfg.flagNMask) = 0#8 → t.pc = s.pc + 8#32) ∧
      (s.Inv → mask = 0xFF#8 → s.flags &&& s.cfg.flagZMask ≠ 0#8 ∨ s.flags &&& s.cfg.flagNMask ≠ 0#8 →
        t.pc = effectiveAddress addr disp scale)

/-- R120: LD reg,imm loads the immediate unchanged, and nothing else changes but `pc`; its encoding is R81's, whose ignored
fields are the spec's own decision D14 (log 15). -/
def Obligations.LdImmLoadsTheImmediate : Prop :=
  EncodedRI 0x40#8 .ldImm ∧
  ∀ (r : Reg) (imm : Word) (s : State),
    CompletesWith (exec (.ldImm r imm) s) s [.reg r] (fun t => t.reg r = imm)

/-- R121: ADD, modulo 2^32; no flag; its encoding is R81's, whose ignored fields are the spec's own decision D14
(log 15). -/
def Obligations.AddWraps : Prop :=
  EncodedRI 0x41#8 .add ∧
  ∀ (r : Reg) (imm : Word) (s : State),
    CompletesWith (exec (.add r imm) s) s [.reg r]
      (fun t => (t.reg r).toNat = ((s.reg r).toNat + imm.toNat) % 2 ^ 32)

/-- R122: SUB, modulo 2^32; no flag; its encoding is R81's, whose ignored fields are the spec's own decision D14
(log 15). -/
def Obligations.SubWraps : Prop :=
  EncodedRI 0x42#8 .sub ∧
  ∀ (r : Reg) (imm : Word) (s : State),
    CompletesWith (exec (.sub r imm) s) s [.reg r]
      (fun t => ((t.reg r).toNat : Int) = (((s.reg r).toNat : Int) - imm.toNat) % 2 ^ 32)

/-- MUL, the exact product modulo 2^32; reading the operands as signed gives the same (the spec's own derivation).
The ignored fields are the spec's own decision D14 (log 15). -/
def Obligations.MulKeepsTheLowWord : Prop :=
  EncodedRI 0x43#8 .mul ∧
  ∀ (r : Reg) (imm : Word) (s : State),
    CompletesWith (exec (.mul r imm) s) s [.reg r]
      (fun t => (t.reg r).toNat = (s.reg r).toNat * imm.toNat % 2 ^ 32 ∧
        ((t.reg r).toNat : Int) = ((s.reg r).toInt * imm.toInt) % 2 ^ 32)

/-- DIV with a divisor other than 0 completes; under the reference `DIV_FN` the result is the largest `q` with
`q * imm <= x`; under every `DIV_FN` a division by 1 changes nothing.  A zero divisor faults, the register unchanged.
Unsigned division, the fault and the ignored fields are the spec's own decisions D8, D9 and D14 (log 4 and 15). -/
def Obligations.DivIsTheUnsignedQuotient : Prop :=
  EncodedRI 0x44#8 .div ∧
  ∀ (r : Reg) (imm : Word) (s : State),
    (imm ≠ 0#32 → CompletesWith (exec (.div r imm) s) s [.reg r]
      (fun t =>
        (s.cfg.divFn = .unsigned → (t.reg r).toNat * imm.toNat ≤ (s.reg r).toNat ∧
          ∀ q : Nat, q * imm.toNat ≤ (s.reg r).toNat → q ≤ (t.reg r).toNat) ∧
        (imm = 1#32 → t.reg r = s.reg r))) ∧
    (imm = 0#32 → FaultsWith (exec (.div r imm) s) s .divideByZero 0#32 (some 0x44#8))

/-- LD reg,[addr] zero-extends the `scale` bytes at the effective address; a scale other than 1, 2, 4 is BadWidth, before
the address is checked; an access past memory is AddressOutOfRange.  Zero extension, the bounds check, the wrap, the
order of the checks and the ignored select bits are the spec's own decisions D6, D4, D5, D13 and D14 (log 9 to 12
and 15). -/
def Obligations.LdMemLoadsTheBytes : Prop :=
  EncodedRM 0x50#8 .ldMem ∧
  ∀ (r : Reg) (addr : Word) (disp scale : Byte) (s : State),
    (scale ∉ [1#8, 2#8, 4#8] →
      FaultsWith (exec (.ldMem r addr disp scale) s) s .badWidth (scale.setWidth 32) (some 0x50#8)) ∧
    (scale ∈ [1#8, 2#8, 4#8] → ∀ ea : Word,
      (ea.toNat : Int) = ((addr.toNat : Int) + disp.toInt * scale.toNat) % 2 ^ 32 →
      (ea.toNat + scale.toNat ≤ s.cfg.memSize →
        CompletesWith (exec (.ldMem r addr disp scale) s) s [.reg r]
          (fun t => (t.reg r).toNat
            = ∑ k ∈ Finset.range scale.toNat, (s.mem.read (ea.toNat + k)).toNat * 256 ^ k)) ∧
      (s.cfg.memSize < ea.toNat + scale.toNat →
        FaultsWith (exec (.ldMem r addr disp scale) s) s .addressOutOfRange ea (some 0x50#8)))

/-- LDR loads from the address in `x[r2]`, read before `x[r1]` is written, also when they are the same register;
displacement and immediate are ignored.  Zero extension, the bounds check, the order of the checks and
the ignored fields are the spec's own decisions D6, D4, D13 and D14 (log 10 to 12 and 15). -/
def Obligations.LdrLoadsThroughTheRegister : Prop :=
  (∀ (rs disp scale i0 i1 i2 i3 : Byte) (rest : List Byte) (r1 r2 : Reg), r1.ordinal = rs.toNat % 4 →
    r2.ordinal = rs.toNat / 4 % 4 →
    decode (0x51#8 :: rs :: disp :: scale :: i0 :: i1 :: i2 :: i3 :: rest) = .ok (.ldr r1 r2 scale, rest)) ∧
  ∀ (r1 r2 : Reg) (scale : Byte) (s : State),
    (scale ∉ [1#8, 2#8, 4#8] →
      FaultsWith (exec (.ldr r1 r2 scale) s) s .badWidth (scale.setWidth 32) (some 0x51#8)) ∧
    (scale ∈ [1#8, 2#8, 4#8] → (s.reg r2).toNat + scale.toNat ≤ s.cfg.memSize →
      CompletesWith (exec (.ldr r1 r2 scale) s) s [.reg r1]
        (fun t => (t.reg r1).toNat
          = ∑ k ∈ Finset.range scale.toNat, (s.mem.read ((s.reg r2).toNat + k)).toNat * 256 ^ k)) ∧
    (scale ∈ [1#8, 2#8, 4#8] → s.cfg.memSize < (s.reg r2).toNat + scale.toNat →
      FaultsWith (exec (.ldr r1 r2 scale) s) s .addressOutOfRange (s.reg r2) (some 0x51#8))

/-- ST writes the low `scale` bytes of the register at the effective address, little-endian, and no other byte; no register
changes; a fault writes nothing.  Truncation, the bounds check, the wrap, precision and the ignored select bits are the
spec's own decisions D7, D4, D5, D12 and D14 (log 9 to 12 and 15). -/
def Obligations.StStoresTheLowBytes : Prop :=
  EncodedRM 0x58#8 .st ∧
  ∀ (r : Reg) (addr : Word) (disp scale : Byte) (s : State),
    (scale ∉ [1#8, 2#8, 4#8] →
      FaultsWith (exec (.st r addr disp scale) s) s .badWidth (scale.setWidth 32) (some 0x58#8)) ∧
    (scale ∈ [1#8, 2#8, 4#8] → ∀ ea : Word,
      (ea.toNat : Int) = ((addr.toNat : Int) + disp.toInt * scale.toNat) % 2 ^ 32 →
      (ea.toNat + scale.toNat ≤ s.cfg.memSize → s.mem.wf →
        CompletesWith (exec (.st r addr disp scale) s) s [.mem]
          (fun t => (∀ k, k < scale.toNat →
              (t.mem.read (ea.toNat + k)).toNat = (s.reg r).toNat / 256 ^ k % 256) ∧
            ∀ b, b < ea.toNat ∨ ea.toNat + scale.toNat ≤ b → t.mem.read b = s.mem.read b)) ∧
      (s.cfg.memSize < ea.toNat + scale.toNat →
        FaultsWith (exec (.st r addr disp scale) s) s .addressOutOfRange ea (some 0x58#8)))

/-- CPR ORs Z in when the wrapped difference is 0 and N when its bit 31 is set, and changes nothing else.  That nothing is
ever cleared, and that the ignored fields have no effect, are the spec's own decisions D10 and D14 (log 13 and 15). -/
def Obligations.CprOrsInTheFlags : Prop :=
  EncodedRI 0xC0#8 .cpr ∧
  ∀ (r : Reg) (imm : Word) (s : State) (d : Nat), (d : Int) = (((s.reg r).toNat : Int) - imm.toNat) % 2 ^ 32 →
    CompletesWith (exec (.cpr r imm) s) s [.flags]
      (fun t => t.flags
        = s.flags ||| (if d = 0 then s.cfg.flagZMask else 0#8) ||| (if 2 ^ 31 ≤ d then s.cfg.flagNMask else 0#8))

/-- R170: STP writes `pc`, then halts; all its operand bytes are ignored (the spec's own
decision D14, log 15), and no step follows (D19, log 1). -/
def Obligations.StpHalts : Prop :=
  (∀ (rs disp scale i0 i1 i2 i3 : Byte) (rest : List Byte),
    decode (0xF0#8 :: rs :: disp :: scale :: i0 :: i1 :: i2 :: i3 :: rest) = .ok (.stp, rest)) ∧
  ∀ s : State, CompletesWith (exec .stp s) s [.status]
    (fun t => t.status = .halted ∧ step t = .fault .halted)

/-- BRK 1 emits the byte at the output port and goes on; it faults only where memory does not reach the port; every other
code is UnknownTrap.  The raw byte, the bounds fault and the ignored fields are the spec's own decisions D18, D4 and D14
(log 11, 14 and 15). -/
def Obligations.BrkEmitsThePortByte : Prop :=
  (∀ (rs disp scale i0 i1 i2 i3 : Byte) (rest : List Byte),
    decode (0xF1#8 :: rs :: disp :: scale :: i0 :: i1 :: i2 :: i3 :: rest)
      = .ok (.brk (i3 ++ i2 ++ i1 ++ i0), rest)) ∧
  ∀ s : State,
    (0x00F00000 < s.cfg.memSize →
      CompletesWith (exec (.brk 1#32) s) s [.out] (fun t => t.out = s.out ++ [s.mem.read 0x00F00000])) ∧
    (s.cfg.memSize ≤ 0x00F00000 →
      FaultsWith (exec (.brk 1#32) s) s .addressOutOfRange 0x00F00000#32 (some 0xF1#8)) ∧
    (∀ code : Word, code ≠ 1#32 → FaultsWith (exec (.brk code) s) s .unknownTrap code (some 0xF1#8))

/-! Laws of several instructions. -/

/-- The three compare laws the spec derives: equality sets Z and leaves N; N is set exactly when the wrapped difference is
2^31 or more, which for an unsigned `x < v` is exactly `v - x <= 2^31`; nothing is cleared and nothing but Z and N set.  That
nothing is cleared is the spec's own decision D10 (log 13), and N as bit 31 of the wrapped difference is its reading
of a conflict, C3 (log 23). -/
def Obligations.CompareLaws : Prop :=
  ∀ (r : Reg) (v : Word) (s : State), s.cfg.legal = true →
    ∃ t, exec (.cpr r v) s = .next t ∧
      (s.reg r = v → t.flags &&& s.cfg.flagZMask = s.cfg.flagZMask ∧
        t.flags &&& s.cfg.flagNMask = s.flags &&& s.cfg.flagNMask) ∧
      (2 ^ 31 ≤ (s.reg r - v).toNat → t.flags &&& s.cfg.flagNMask = s.cfg.flagNMask) ∧
      ((s.reg r - v).toNat < 2 ^ 31 → t.flags &&& s.cfg.flagNMask = s.flags &&& s.cfg.flagNMask) ∧
      ((s.reg r).toNat < v.toNat → (2 ^ 31 ≤ (s.reg r - v).toNat ↔ v.toNat - (s.reg r).toNat ≤ 2 ^ 31)) ∧
      s.flags &&& t.flags = s.flags ∧
      t.flags &&& ~~~(s.cfg.flagZMask ||| s.cfg.flagNMask)
        = s.flags &&& ~~~(s.cfg.flagZMask ||| s.cfg.flagNMask)

/-- A store of width `w` at `a`, then a load of width `w` from `a` (LD reg,[addr] or LDR) with no write to
`[a, a+w)` between them, leaves the destination equal to the stored value modulo 2^(8w). -/
def Obligations.StoreThenLoadReturnsTheValue : Prop :=
  ∀ (s u : State) (r q p : Reg) (addr addr' : Word) (disp disp' w : Byte), s.mem.wf → w ∈ [1#8, 2#8, 4#8] →
    (effectiveAddress addr disp w).toNat + w.toNat ≤ s.cfg.memSize →
    ∃ t, exec (.st r addr disp w) s = .next t ∧
      (u.cfg = s.cfg → (∀ k, k < w.toNat → u.mem.read ((effectiveAddress addr disp w).toNat + k)
          = t.mem.read ((effectiveAddress addr disp w).toNat + k)) →
        (effectiveAddress addr' disp' w = effectiveAddress addr disp w →
          ∃ v, exec (.ldMem q addr' disp' w) u = .next v ∧ v.status = u.status ∧
            (v.reg q).toNat = (s.reg r).toNat % 2 ^ (8 * w.toNat)) ∧
        (u.reg p = effectiveAddress addr disp w →
          ∃ v, exec (.ldr q p w) u = .next v ∧ v.status = u.status ∧
            (v.reg q).toNat = (s.reg r).toNat % 2 ^ (8 * w.toNat)))

/-- The output port is ordinary memory.  A store that reaches it, by whatever base and displacement and with whichever of
its bytes, emits nothing; BRK 1 then emits the byte of the register stored there (its low byte where the store starts at
the port), and leaves the port byte, so a second BRK 1 emits it again.  The raw byte, the low bytes of a narrow store and
the wrapped address are the spec's own decisions D18, D7 and D5 (log 14, 10 and 9). -/
def Obligations.StoreToThePortThenTrapEmits : Prop :=
  ∀ (s : State) (r : Reg) (addr : Word) (disp w : Byte) (k : Nat), s.mem.wf → w ∈ [1#8, 2#8, 4#8] →
    (effectiveAddress addr disp w).toNat + k = 0x00F00000 → k < w.toNat →
    (effectiveAddress addr disp w).toNat + w.toNat ≤ s.cfg.memSize →
    ∃ t u v, exec (.st r addr disp w) s = .next t ∧ t.out = s.out ∧
      exec (.brk 1#32) t = .next u ∧ u.out = s.out ++ [(s.reg r).extractLsb' (8 * k) 8] ∧
      exec (.brk 1#32) u = .next v ∧
      v.out = s.out ++ [(s.reg r).extractLsb' (8 * k) 8, (s.reg r).extractLsb' (8 * k) 8]

/-- The operand faults (causes 2 to 4) are a matter of the instruction alone: one that is not well-formed takes one
of them in every state, and one that is well-formed faults only on an address.  The divide-by-zero fault and the address
fault are the spec's own decisions D9 and D4 (log 4 and 11). -/
def Obligations.IllFormedFaultsOnOperandWellFormedOnlyOnAddress : Prop :=
  ∀ (i : Instr) (s : State),
    (i.wellFormed = false → ∃ t rec, exec i s = .next t ∧ t.status = .faulted rec ∧
      (rec.cause = .badWidth ∨ rec.cause = .unknownTrap ∨ rec.cause = .divideByZero)) ∧
    (i.wellFormed = true → ∀ t, exec i s = .next t → t.status = s.status ∨ (i = .stp ∧ t.status = .halted) ∨
      ∃ rec, t.status = .faulted rec ∧ rec.cause = .addressOutOfRange)

/-! Rules of the whole machine. -/

/-- The flags: a step that changes `flags` ran CPR; only BRC's outcome depends on them (the unspecified `pc` of a Faulted
state apart); a bit once set stays set; and the six bits other than Z and N are 0 in every state a core preloaded with
legal parameters reaches.  That no flag is ever cleared is the spec's own decision D10 (log 13). -/
def Obligations.FlagsAreStickyAndCprOnly : Prop :=
  (∀ s t : State, step s = .next t → s.flags &&& t.flags = s.flags ∧
    (t.flags ≠ s.flags → ∃ r imm, fetch s = .ok (.cpr r imm))) ∧
  (∀ (i : Instr) (s t : State) (f : Byte), (∀ m a d k, i ≠ .brc m a d k) → exec i s = .next t →
    ∃ t', exec i { s with flags := f } = .next t' ∧ SameOutcome { t' with flags := t.flags } t) ∧
  (∀ (c : Config) (image : List Byte) (k : Nat) (t : State), c.legal = true → Reaches c image k t →
    t.flags &&& ~~~(c.flagZMask ||| c.flagNMask) = 0#8)

/-- R31: a step starts in Running only; it goes to Halted exactly when it runs STP, and to Faulted only by a fault that is
due, with its record; and no step leaves Halted or Faulted.  When a fault is due rests on the spec's own decisions D4, D9,
D11 and D13 (log 4, 11 and 12), and that there is no step from Halted or Faulted is D19 (log 1). -/
def Obligations.StatusChangesOnlyByStpAndFaults : Prop :=
  (∀ s t : State, step s = .next t → s.status = .running ∧
    (t.status = .halted ↔ fetch s = .ok .stp) ∧
    (∀ rec, t.status = .faulted rec → FaultDue s rec)) ∧
  (∀ s : State, s.status = .halted → step s = .fault .halted) ∧
  (∀ (s : State) (rec : FaultRecord), s.status = .faulted rec → step s = .fault (.faulted rec))

/-- "A Running core always has a next step", and no other core has one (the spec's own decision D19, log 1). -/
def Obligations.RunningCoreAlwaysSteps : Prop :=
  ∀ s : State, s.status = .running ↔ ∃ t, step s = .next t

/-- Only trap 1 of BRK appends to `out`, the byte at the port, and nothing removes a byte; at reset it is empty.
The raw byte and the empty output at reset are the spec's own decision D18 (log 14). -/
def Obligations.OutputOnlyGrowsByTrapOne : Prop :=
  (∀ s t : State, step s = .next t →
    t.out = s.out ∨ (fetch s = .ok (.brk 1#32) ∧ t.out = s.out ++ [s.mem.read 0x00F00000])) ∧
  State.reset.out = [] ∧ ∀ (c : Config) (image : List Byte) (s : State), preload c image = some s → s.out = []

/-- Only ST writes memory: a step that changes what some address reads as ran ST, and the address lies in the bytes
stored to. -/
def Obligations.OnlyStWritesMemory : Prop :=
  ∀ (s t : State) (a : Nat), step s = .next t → t.mem.read a ≠ s.mem.read a →
    ∃ r addr disp scale, fetch s = .ok (.st r addr disp scale) ∧ scale ∈ [1#8, 2#8, 4#8] ∧
      (effectiveAddress addr disp scale).toNat ≤ a ∧ a < (effectiveAddress addr disp scale).toNat + scale.toNat

/-- A fault is precise (the spec's own decision D12, log 12): apart from `pc` and `status` (and the model's own counter), the Faulted state is the state
before the faulting step, memory as data included, and the record names the instruction's address. -/
def Obligations.FaultingStepWritesNothing : Prop :=
  ∀ (s t : State) (rec : FaultRecord), step s = .next t → t.status = .faulted rec →
    t.regs = s.regs ∧ t.flags = s.flags ∧ t.sp = s.sp ∧ t.mem = s.mem ∧ t.out = s.out ∧ t.cfg = s.cfg ∧
      rec.addr = s.pc

/-- A step faults exactly when a fault is due by the table of causes, with that record, and it is the first one in the
spec's order of checks.  The bounds faults, the zero divisor, the record's address and the order are the spec's own
decisions D4, D9, D11 and D13 (log 11, 4 and 12); that the value `ia + 1` of a cut operand block wraps modulo 2^32 is
read from the spec by inference (log 6). -/
def Obligations.FaultsAreExactlyTheTable : Prop :=
  ∀ (s t : State) (rec : FaultRecord), step s = .next t → (t.status = .faulted rec ↔ FaultDue s rec)

/-- The invariant of a core is kept by every step, from every state that meets it. -/
def Obligations.StepKeepsTheInvariant : Prop :=
  ∀ s t : State, s.Inv → step s = .next t → t.Inv

/-- The reset state meets the invariant, and so does every preloaded core with legal parameters. -/
def Obligations.ResetMeetsTheInvariant : Prop :=
  State.reset.Inv ∧
    ∀ (c : Config) (image : List Byte) (s : State), c.legal = true → preload c image = some s → s.Inv

/-- The stack pointer: a step neither changes `sp` nor depends on it (the unspecified `pc` of a Faulted state apart), nor
does it change the parameters; so `sp` is 0x000FFFFF in every state a preloaded core reaches. -/
def Obligations.SpIsNeverUsed : Prop :=
  (∀ s t : State, step s = .next t → t.sp = s.sp ∧ t.cfg = s.cfg) ∧
  (∀ (s t : State) (v : Word), step s = .next t →
    ∃ t', step { s with sp := v } = .next t' ∧ SameOutcome t' { t with sp := v }) ∧
  (∀ (c : Config) (image : List Byte) (k : Nat) (t : State), Reaches c image k t → t.sp = 0x000FFFFF#32)

/-- Push moves `sp` down by 4 and stores there, pop reads there and moves `sp` up by 4; a pop after a push returns
the value and restores `sp`.  That a push or a pop that faults leaves nothing behind is read from the spec by inference
(log 8); SpIsNeverUsed says that no step touches `sp`. -/
def Obligations.PopAfterPushReturnsTheValue : Prop :=
  ∀ (s : State) (v : Word), s.mem.wf → (s.sp - 4#32).toNat + 4 ≤ s.cfg.memSize →
    ∃ t u, push v s = .ok t ∧ t.sp = s.sp - 4#32 ∧ pop t = .ok (v, u) ∧ u.sp = s.sp ∧ u.mem = t.mem ∧
      ∀ b, b < (s.sp - 4#32).toNat ∨ (s.sp - 4#32).toNat + 4 ≤ b → u.mem.read b = s.mem.read b

/-- R22: an instruction changes no general register but the one the table says it writes, its outcome depends on no
general register but the one the table says it reads, and none uses the third or fourth register field (BRC reads its
select byte as a mask).  The table's registers are used in fact: for every opcode and registers there are operands and a
state in which the register it writes changes, and ones in which what it writes depends on the register it reads.  The
unspecified `pc` of a Faulted state is left out. -/
def Obligations.RegistersAreUsedAsTheTableSays : Prop :=
  (∀ (op rs rs' : Byte) (rest : List Byte), op ≠ 0x21#8 → rs.toNat % 16 = rs'.toNat % 16 →
    decode (op :: rs :: rest) = decode (op :: rs' :: rest)) ∧
  (∀ i : Instr, ∃ j : Instr, j.opcode = i.opcode ∧ regWritten j = regWritten i ∧ regRead j = regRead i ∧
    (∀ q, regWritten i = some q → ∃ s t, exec j s = .next t ∧ t.reg q ≠ s.reg q) ∧
    (∀ q, regRead i = some q → ∃ s v t t', exec j s = .next t ∧ exec j (s.setReg q v) = .next t' ∧
      ((∃ p, regWritten i = some p ∧ t'.reg p ≠ t.reg p) ∨ t'.flags ≠ t.flags ∨
        ∃ a, t'.mem.read a ≠ t.mem.read a))) ∧
  ∀ (i : Instr) (s t : State), exec i s = .next t →
    (∀ q, regWritten i ≠ some q → t.reg q = s.reg q) ∧
    (∀ (q : Reg) (v : Word), regRead i ≠ some q →
      ∃ t', exec i (s.setReg q v) = .next t' ∧
        (∀ p, p ≠ q ∨ (regWritten i = some q ∧ ∀ rec, t.status ≠ .faulted rec) → t'.reg p = t.reg p) ∧
        SameOutcome { t' with regs := t.regs } t)

/-- R91: a step that does not fault sets `pc` to `ia + 8`, modulo 2^32, except a taken BR or BRC, which sets it to its
target; STP advances too.  That `pc` and the target wrap is the spec's own decision D5 (log 9). -/
def Obligations.PcAdvancesByEightUnlessBranching : Prop :=
  ∀ s t : State, step s = .next t → (∀ rec, t.status ≠ .faulted rec) →
    (t.pc.toNat = (s.pc.toNat + 8) % 2 ^ 32 ∧ (∀ addr disp scale, fetch s ≠ .ok (.br addr disp scale)) ∧
      ∀ mask addr disp scale, fetch s = .ok (.brc mask addr disp scale) → s.flags &&& mask = 0#8) ∨
    (∃ addr disp scale, fetch s = .ok (.br addr disp scale) ∧ t.pc = effectiveAddress addr disp scale) ∨
    (∃ mask addr disp scale, fetch s = .ok (.brc mask addr disp scale) ∧ s.flags &&& mask ≠ 0#8 ∧
      t.pc = effectiveAddress addr disp scale)

/-- Self-modifying code (the spec's own decision D16, log 15): a store into the opcode byte of the next instruction changes what the next step runs, and not the store
itself. -/
def Obligations.StoredOpcodeRunsNext : Prop :=
  ∀ (s : State) (r : Reg) (addr : Word) (disp : Byte) (i : Instr), s.status = .running → s.mem.wf →
    fetch s = .ok (.st r addr disp 1#8) → s.pc.toNat + 16 ≤ s.cfg.memSize → s.cfg.memSize ≤ 2 ^ 32 →
    effectiveAddress addr disp 1#8 = s.pc + 8#32 →
    decode ((s.reg r).setWidth 8 :: (List.range 7).map (fun k => s.mem.read (s.pc.toNat + 9 + k))) = .ok (i, []) →
    ∃ t, step s = .next t ∧ t.pc = s.pc + 8#32 ∧ step t = exec i t

/-- What a step fetches depends on nothing but `pc`, `MEM_SIZE` and the bytes of memory at `pc`: no register, flag,
output or other byte of memory. -/
def Obligations.FetchDependsOnItsBytesAlone : Prop :=
  ∀ s u : State, u.pc = s.pc → u.cfg.memSize = s.cfg.memSize →
    (∀ k, k < 8 → s.pc.toNat + k < s.cfg.memSize → u.mem.read (s.pc.toNat + k) = s.mem.read (s.pc.toNat + k)) →
    fetch u = fetch s

/-- R207: a run ends when the status is Halted (exit code 0) or Faulted (exit code 1), and at no other time.
That no step leaves a terminal state is the spec's own decision D19 (log 1); the exit codes are the host's (log 20). -/
def Obligations.RunEndsHaltedOrFaulted : Prop :=
  (∀ s : State, (∀ t, step s ≠ .next t) ↔ exitCode s.status ≠ none) ∧
    exitCode .halted = some 0 ∧ (∀ rec, exitCode (.faulted rec) = some 1) ∧ exitCode .running = none

/-- R95 and R82: the canonical set is exactly these thirteen opcode bytes, each selecting its own instruction, matched on
the whole byte: whatever operand block follows, a byte decodes to an instruction of an opcode exactly when the table
pairs them. -/
def Obligations.OpcodeMapIsTheTable : Prop :=
  ∀ (op rs disp scale i0 i1 i2 i3 : Byte) (rest : List Byte) (o : Opcode),
    (∃ i, decode (op :: rs :: disp :: scale :: i0 :: i1 :: i2 :: i3 :: rest) = .ok (i, rest) ∧ i.opcode = o) ↔
      (op, o) ∈ [(0x20#8, .br), (0x21#8, .brc), (0x40#8, .ldImm), (0x41#8, .add), (0x42#8, .sub), (0x43#8, .mul),
        (0x44#8, .div), (0x50#8, .ldMem), (0x51#8, .ldr), (0x58#8, .st), (0xC0#8, .cpr), (0xF0#8, .stp),
        (0xF1#8, Opcode.brk)]
end

