-- ==== Sys2Proof/Laws/Decode.lean ====
section
/-! SUPPORT. The laws of the opcode table, the fields and the encoder. -/

namespace Sys2Proof

/-- The opcode table is unambiguous: looking up an opcode's byte gives that opcode back. -/
@[simp] theorem Opcode.ofByte_toByte (o : Opcode) : Opcode.ofByte o.toByte = some o := by
  cases o <;> decide

/-- Only an opcode's own byte names it (spec/30_encoding.md R82: the whole byte takes part). -/
theorem Opcode.toByte_of_ofByte {b : Byte} {o : Opcode} (h : Opcode.ofByte b = some o) : o.toByte = b := by
  simpa using List.find?_some h

theorem Opcode.ofByte_eq_some {b : Byte} {o : Opcode} : Opcode.ofByte b = some o ↔ b = o.toByte :=
  ⟨fun h => (Opcode.toByte_of_ofByte h).symm, fun h => h ▸ Opcode.ofByte_toByte o⟩

/-- A register is its ordinal. -/
theorem Reg.ordinal_inj {r q : Reg} : r.ordinal = q.ordinal ↔ r = q := by
  cases r <;> cases q <;> decide

/-- `reg1` is the register whose ordinal is `rs[1:0]` (R83). -/
theorem regAt_one (rs : Byte) : (regAt rs 1).ordinal = rs.toNat % 4 := by
  revert rs; decide

/-- `reg2` is the register whose ordinal is `rs[3:2]` (R83). -/
theorem regAt_two (rs : Byte) : (regAt rs 2).ordinal = rs.toNat / 4 % 4 := by
  revert rs; decide

theorem regAt_one_eq {rs : Byte} {r : Reg} (h : r.ordinal = rs.toNat % 4) : regAt rs 1 = r :=
  Reg.ordinal_inj.mp (by rw [regAt_one, h])

theorem regAt_two_eq {rs : Byte} {r : Reg} (h : r.ordinal = rs.toNat / 4 % 4) : regAt rs 2 = r :=
  Reg.ordinal_inj.mp (by rw [regAt_two, h])

@[simp] theorem regAt_selectByte_one (r1 r2 : Reg) : regAt (selectByte r1 r2) 1 = r1 := by
  cases r1 <;> cases r2 <;> decide

@[simp] theorem regAt_selectByte_two (r1 r2 : Reg) : regAt (selectByte r1 r2) 2 = r2 := by
  cases r1 <;> cases r2 <;> decide

/-- The four bytes of a word make it again (R53). -/
@[simp] theorem leWord_leBytes (v : Word) :
    leWord (v.extractLsb' 0 8) (v.extractLsb' 8 8) (v.extractLsb' 16 8) (v.extractLsb' 24 8) = v := by
  unfold leWord
  ext i hi
  simp only [BitVec.getElem_append, BitVec.getElem_extractLsb']
  split
  · simp_all [BitVec.getLsbD_eq_getElem]
  · split
    · rw [show 8 + (i - 8) = i by omega, BitVec.getLsbD_eq_getElem hi]
    · split
      · rw [show 16 + (i - 8 - 8) = i by omega, BitVec.getLsbD_eq_getElem hi]
      · rw [show 24 + (i - 8 - 8 - 8) = i by omega, BitVec.getLsbD_eq_getElem hi]

/-- The bytes of a word made of four bytes are those four (R53). -/
theorem leBytes_leWord (b0 b1 b2 b3 : Byte) : leBytes (leWord b0 b1 b2 b3) = [b0, b1, b2, b3] := by
  have byte_bit : ∀ (k i : Nat) (hk : k < 4), i < 8 →
      (leWord b0 b1 b2 b3).getLsbD (8 * k + i) = ([b0, b1, b2, b3][k]'hk).getLsbD i := by
    intro k i hk hi
    unfold leWord
    rcases (show k = 0 ∨ k = 1 ∨ k = 2 ∨ k = 3 by omega) with rfl | rfl | rfl | rfl <;>
      simp only [BitVec.getLsbD_append]
    · simp [hi]
    · rw [if_neg (by omega), if_pos (by omega)]
      simp
    · rw [if_neg (by omega), if_neg (by omega), if_pos (by omega)]
      simp only [List.getElem_cons_succ, List.getElem_cons_zero]
      congr 1
      omega
    · rw [if_neg (by omega), if_neg (by omega), if_neg (by omega)]
      simp only [List.getElem_cons_succ, List.getElem_cons_zero]
      congr 1
      omega
  simp only [leBytes, List.cons.injEq, and_true]
  refine ⟨?_, ?_, ?_, ?_⟩ <;> ext i hi <;> simp only [BitVec.getElem_extractLsb']
  · exact byte_bit 0 i (by decide) hi
  · exact byte_bit 1 i (by decide) hi
  · exact byte_bit 2 i (by decide) hi
  · exact byte_bit 3 i (by decide) hi

/-- What the decoder makes of eight bytes whose opcode byte is legal. -/
theorem decode_eight {o : Opcode} (rs disp scale b0 b1 b2 b3 : Byte) (rest : List Byte) :
    decode (o.toByte :: rs :: disp :: scale :: b0 :: b1 :: b2 :: b3 :: rest)
      = .ok (assemble o ⟨rs, disp, scale, leWord b0 b1 b2 b3⟩, rest) := by
  simp [decode]

/-- Every way decoding succeeds. -/
theorem decode_ok {bytes rest : List Byte} {i : Instr} (h : decode bytes = .ok (i, rest)) :
    ∃ o rs disp scale b0 b1 b2 b3,
      bytes = Opcode.toByte o :: rs :: disp :: scale :: b0 :: b1 :: b2 :: b3 :: rest ∧
      i = assemble o ⟨rs, disp, scale, leWord b0 b1 b2 b3⟩ := by
  cases bytes with
  | nil => simp [decode] at h
  | cons op tail =>
    simp only [decode] at h
    split at h
    · simp at h
    · rename_i o ho
      split at h
      · rename_i rs disp scale b0 b1 b2 b3 rest'
        simp only [Except.ok.injEq, Prod.mk.injEq] at h
        obtain ⟨rfl, rfl⟩ := h
        exact ⟨o, rs, disp, scale, b0, b1, b2, b3, by rw [Opcode.toByte_of_ofByte ho], rfl⟩
      · simp at h

/-- The decoder gives the opcode it looked up. -/
@[simp] theorem opcode_assemble (o : Opcode) (f : OperandBlock) : (assemble o f).opcode = o := by
  cases o <;> rfl

/-- Assembling an instruction's own opcode and operands gives it back. -/
@[simp] theorem assemble_operands (i : Instr) : assemble i.opcode i.operands = i := by
  cases i <;> simp [Instr.opcode, Instr.operands, assemble]

/-- Every instruction is eight bytes (R80, R89). -/
theorem encode_length (i : Instr) : (encode i).length = 8 := rfl

end Sys2Proof
end

