-- ==== Sys2Proof/Laws/State.lean ====
section
/-! SUPPORT. One lemma per field per update of the state, so that no later proof unfolds a record update, and the
laws of the register file. -/

namespace Sys2Proof.Machine

@[simp] theorem State.setReg_regs (s : State) (r : Reg) (v : Word) : (s.setReg r v).regs = s.regs.set r v := rfl
@[simp] theorem State.setReg_flags (s : State) (r : Reg) (v : Word) : (s.setReg r v).flags = s.flags := rfl
@[simp] theorem State.setReg_pc (s : State) (r : Reg) (v : Word) : (s.setReg r v).pc = s.pc := rfl
@[simp] theorem State.setReg_sp (s : State) (r : Reg) (v : Word) : (s.setReg r v).sp = s.sp := rfl
@[simp] theorem State.setReg_mem (s : State) (r : Reg) (v : Word) : (s.setReg r v).mem = s.mem := rfl
@[simp] theorem State.setReg_status (s : State) (r : Reg) (v : Word) : (s.setReg r v).status = s.status := rfl
@[simp] theorem State.setReg_out (s : State) (r : Reg) (v : Word) : (s.setReg r v).out = s.out := rfl
@[simp] theorem State.setReg_cfg (s : State) (r : Reg) (v : Word) : (s.setReg r v).cfg = s.cfg := rfl
@[simp] theorem State.setReg_draws (s : State) (r : Reg) (v : Word) : (s.setReg r v).draws = s.draws := rfl

@[simp] theorem State.advance_regs (s : State) : (s.advance).regs = s.regs := rfl
@[simp] theorem State.advance_flags (s : State) : (s.advance).flags = s.flags := rfl
@[simp] theorem State.advance_pc (s : State) : (s.advance).pc = s.pc + 8#32 := rfl
@[simp] theorem State.advance_sp (s : State) : (s.advance).sp = s.sp := rfl
@[simp] theorem State.advance_mem (s : State) : (s.advance).mem = s.mem := rfl
@[simp] theorem State.advance_status (s : State) : (s.advance).status = s.status := rfl
@[simp] theorem State.advance_out (s : State) : (s.advance).out = s.out := rfl
@[simp] theorem State.advance_cfg (s : State) : (s.advance).cfg = s.cfg := rfl
@[simp] theorem State.advance_draws (s : State) : (s.advance).draws = s.draws := rfl

@[simp] theorem State.jump_regs (s : State) (target : Word) : (s.jump target).regs = s.regs := rfl
@[simp] theorem State.jump_flags (s : State) (target : Word) : (s.jump target).flags = s.flags := rfl
@[simp] theorem State.jump_pc (s : State) (target : Word) : (s.jump target).pc = target := rfl
@[simp] theorem State.jump_sp (s : State) (target : Word) : (s.jump target).sp = s.sp := rfl
@[simp] theorem State.jump_mem (s : State) (target : Word) : (s.jump target).mem = s.mem := rfl
@[simp] theorem State.jump_status (s : State) (target : Word) : (s.jump target).status = s.status := rfl
@[simp] theorem State.jump_out (s : State) (target : Word) : (s.jump target).out = s.out := rfl
@[simp] theorem State.jump_cfg (s : State) (target : Word) : (s.jump target).cfg = s.cfg := rfl
@[simp] theorem State.jump_draws (s : State) (target : Word) : (s.jump target).draws = s.draws := rfl

@[simp] theorem State.emit_regs (s : State) (b : Byte) : (s.emit b).regs = s.regs := rfl
@[simp] theorem State.emit_flags (s : State) (b : Byte) : (s.emit b).flags = s.flags := rfl
@[simp] theorem State.emit_pc (s : State) (b : Byte) : (s.emit b).pc = s.pc := rfl
@[simp] theorem State.emit_sp (s : State) (b : Byte) : (s.emit b).sp = s.sp := rfl
@[simp] theorem State.emit_mem (s : State) (b : Byte) : (s.emit b).mem = s.mem := rfl
@[simp] theorem State.emit_status (s : State) (b : Byte) : (s.emit b).status = s.status := rfl
@[simp] theorem State.emit_out (s : State) (b : Byte) : (s.emit b).out = s.out ++ [b] := rfl
@[simp] theorem State.emit_cfg (s : State) (b : Byte) : (s.emit b).cfg = s.cfg := rfl
@[simp] theorem State.emit_draws (s : State) (b : Byte) : (s.emit b).draws = s.draws := rfl

@[simp] theorem takeFault_regs (s : State) (r : FaultRecord) : (takeFault r s).regs = s.regs := rfl
@[simp] theorem takeFault_flags (s : State) (r : FaultRecord) : (takeFault r s).flags = s.flags := rfl
@[simp] theorem takeFault_pc (s : State) (r : FaultRecord) : (takeFault r s).pc = Config.freePc s.draws := rfl
@[simp] theorem takeFault_sp (s : State) (r : FaultRecord) : (takeFault r s).sp = s.sp := rfl
@[simp] theorem takeFault_mem (s : State) (r : FaultRecord) : (takeFault r s).mem = s.mem := rfl
@[simp] theorem takeFault_status (s : State) (r : FaultRecord) : (takeFault r s).status = .faulted r := rfl
@[simp] theorem takeFault_out (s : State) (r : FaultRecord) : (takeFault r s).out = s.out := rfl
@[simp] theorem takeFault_cfg (s : State) (r : FaultRecord) : (takeFault r s).cfg = s.cfg := rfl
@[simp] theorem takeFault_draws (s : State) (r : FaultRecord) : (takeFault r s).draws = s.draws + 1 := rfl

@[simp] theorem State.reg_advance (s : State) (q : Reg) : s.advance.reg q = s.reg q := rfl
@[simp] theorem State.reg_jump (s : State) (w : Word) (q : Reg) : (s.jump w).reg q = s.reg q := rfl
@[simp] theorem State.reg_emit (s : State) (b : Byte) (q : Reg) : (s.emit b).reg q = s.reg q := rfl
@[simp] theorem State.reg_takeFault (s : State) (r : FaultRecord) (q : Reg) : (takeFault r s).reg q = s.reg q := rfl

/-! A preloaded core. -/

@[simp] theorem preloaded_regs (c : Config) (image : List Byte) : (preloaded c image).regs = ⟨0#32, 0#32, 0#32, 0#32⟩ := rfl
@[simp] theorem preloaded_flags (c : Config) (image : List Byte) : (preloaded c image).flags = 0x00#8 := rfl
@[simp] theorem preloaded_pc (c : Config) (image : List Byte) : (preloaded c image).pc = pcReset := rfl
@[simp] theorem preloaded_sp (c : Config) (image : List Byte) : (preloaded c image).sp = spReset := rfl
@[simp] theorem preloaded_mem (c : Config) (image : List Byte) : (preloaded c image).mem = (Memory.mk []).load 0 image := rfl
@[simp] theorem preloaded_status (c : Config) (image : List Byte) : (preloaded c image).status = .running := rfl
@[simp] theorem preloaded_out (c : Config) (image : List Byte) : (preloaded c image).out = [] := rfl
@[simp] theorem preloaded_cfg (c : Config) (image : List Byte) : (preloaded c image).cfg = c := rfl
@[simp] theorem preloaded_draws (c : Config) (image : List Byte) : (preloaded c image).draws = 0 := rfl

@[simp] theorem reg_preloaded (c : Config) (image : List Byte) (r : Reg) : (preloaded c image).reg r = 0#32 := by
  cases r <;> rfl

theorem preload_fits {c : Config} {image : List Byte} (h : image.length ≤ c.memSize) :
    preload c image = some (preloaded c image) := if_pos h

theorem preload_refused {c : Config} {image : List Byte} (h : c.memSize < image.length) : preload c image = none :=
  if_neg (Nat.not_le_of_lt h)

/-- A preload that succeeds is of an image that fits. -/
theorem preload_eq_some {c : Config} {image : List Byte} {s : State} (h : preload c image = some s) :
    image.length ≤ c.memSize ∧ s = preloaded c image := by
  by_cases hl : image.length ≤ c.memSize
  · rw [preload_fits hl, Option.some.injEq] at h
    exact ⟨hl, h.symm⟩
  · rw [preload_refused (Nat.lt_of_not_le hl)] at h
    cases h

/-! The register file. -/

@[simp] theorem RegFile.get_set_self (x : RegFile) (r : Reg) (v : Word) : (x.set r v).get r = v := by
  cases r <;> rfl

theorem RegFile.get_set_of_ne (x : RegFile) {q r : Reg} (v : Word) (h : q ≠ r) :
    (x.set r v).get q = x.get q := by
  cases q <;> cases r <;> first | rfl | exact absurd rfl h

@[simp] theorem State.reg_setReg_self (s : State) (r : Reg) (v : Word) : (s.setReg r v).reg r = v :=
  s.regs.get_set_self r v

theorem State.reg_setReg_of_ne (s : State) {q r : Reg} (v : Word) (h : q ≠ r) :
    (s.setReg r v).reg q = s.reg q :=
  s.regs.get_set_of_ne v h

/-! Frames. -/

/-- What a handler that writes one register and advances leaves unchanged. -/
theorem frame_setReg_advance (s : State) (r : Reg) (v : Word) : Frame [.reg r] s (s.setReg r v).advance where
  regs q h := by
    have : q ≠ r := fun e => h (by simp [e])
    simp [State.reg_setReg_of_ne s v this]
  flags _ := rfl
  mem _ _ := rfl
  out _ := rfl
  status _ := rfl
  sp := rfl
  cfg := rfl
  draws := rfl

/-- What taking a fault leaves unchanged (spec/60_exceptions.md R195). -/
theorem untouched_takeFault (r : FaultRecord) (s : State) : Untouched s (takeFault r s) :=
  ⟨fun _ => rfl, rfl, rfl, fun _ => rfl, rfl, rfl⟩

end Sys2Proof.Machine
end

