-- ==== Sys2Proof/Laws/Memory.lean ====
section
/-! SUPPORT. The laws of memory: a read after a write, the canonical form, and the multi-byte accesses. -/

namespace Sys2Proof.Machine

/-! One cell. -/

/-- Below the first listed address nothing is listed. -/
theorem lookupCell_of_lt_all {l : List Host.Cell} {a : Nat} (h : ∀ p ∈ l, a < p.1) :
    lookupCell l a = unlistedByte := by
  induction l with
  | nil => rfl
  | cons p rest ih =>
    obtain ⟨k, b⟩ := p
    have hk : a < k := h (k, b) (by simp)
    simp only [lookupCell, if_neg (Nat.ne_of_gt hk)]
    exact ih (fun p hp => h p (by simp [hp]))

theorem lookupCell_storeCell_self {l : List Host.Cell} (h : l.Pairwise (fun p q => p.1 < q.1)) (a : Nat) (v : Byte) :
    lookupCell (storeCell l a v) a = v := by
  induction l with
  | nil => by_cases hv : v = unlistedByte <;> simp [storeCell, lookupCell, hv]
  | cons p rest ih =>
    obtain ⟨k, b⟩ := p
    obtain ⟨hlt, hrest⟩ := List.pairwise_cons.mp h
    simp only [storeCell]
    split
    · rename_i hak
      split
      · rename_i hv
        subst hv
        refine lookupCell_of_lt_all fun p hp => ?_
        rcases List.mem_cons.mp hp with rfl | hp
        · exact hak
        · exact Nat.lt_trans hak (hlt p hp)
      · simp [lookupCell]
    · split
      · rename_i hak
        subst hak
        split
        · rename_i hv
          subst hv
          exact lookupCell_of_lt_all hlt
        · simp [lookupCell]
      · rename_i hak
        simp only [lookupCell, if_neg (Ne.symm hak)]
        exact ih hrest

theorem lookupCell_storeCell_of_ne (l : List Host.Cell) {a c : Nat} (v : Byte) (h : c ≠ a) :
    lookupCell (storeCell l a v) c = lookupCell l c := by
  induction l with
  | nil => by_cases hv : v = unlistedByte <;> simp [storeCell, lookupCell, hv, h.symm]
  | cons p rest ih =>
    obtain ⟨k, b⟩ := p
    simp only [storeCell]
    split
    · split
      · rfl
      · simp [lookupCell, h.symm]
    · split
      · rename_i hak
        subst hak
        split <;> simp [lookupCell, h.symm]
      · simp only [lookupCell, ih]

theorem mem_storeCell {l : List Host.Cell} {a : Nat} {v : Byte} {p : Host.Cell} (h : p ∈ storeCell l a v) :
    p = (a, v) ∧ v ≠ unlistedByte ∨ p ∈ l := by
  induction l with
  | nil =>
    by_cases hv : v = unlistedByte <;> simp_all [storeCell]
  | cons q rest ih =>
    obtain ⟨k, b⟩ := q
    simp only [storeCell] at h
    split at h
    · split at h
      · exact .inr h
      · rename_i hv
        rcases List.mem_cons.mp h with rfl | h
        · exact .inl ⟨rfl, hv⟩
        · exact .inr h
    · split at h
      · split at h
        · exact .inr (List.mem_cons_of_mem _ h)
        · rename_i hv
          rcases List.mem_cons.mp h with rfl | h
          · exact .inl ⟨rfl, hv⟩
          · exact .inr (List.mem_cons_of_mem _ h)
      · rcases List.mem_cons.mp h with rfl | h
        · exact .inr List.mem_cons_self
        · exact (ih h).imp_right (List.mem_cons_of_mem _)

theorem storeCell_pairwise {l : List Host.Cell} (h : l.Pairwise (fun p q => p.1 < q.1)) (a : Nat) (v : Byte) :
    (storeCell l a v).Pairwise (fun p q => p.1 < q.1) := by
  induction l with
  | nil => by_cases hv : v = unlistedByte <;> simp [storeCell, hv]
  | cons q rest ih =>
    obtain ⟨k, b⟩ := q
    obtain ⟨hlt, hrest⟩ := List.pairwise_cons.mp h
    simp only [storeCell]
    split
    · rename_i hak
      split
      · exact h
      · refine List.pairwise_cons.mpr ⟨fun p hp => ?_, h⟩
        rcases List.mem_cons.mp hp with rfl | hp
        · exact hak
        · exact Nat.lt_trans hak (hlt p hp)
    · rename_i hlow
      split
      · rename_i hak
        subst hak
        split
        · exact hrest
        · exact List.pairwise_cons.mpr ⟨hlt, hrest⟩
      · rename_i hne
        refine List.pairwise_cons.mpr ⟨fun p hp => ?_, ih hrest⟩
        rcases mem_storeCell hp with ⟨rfl, -⟩ | hp
        · show k < a
          omega
        · exact hlt p hp

/-! One byte of memory. -/

@[simp] theorem Memory.read_empty (a : Nat) : (Memory.mk []).read a = unlistedByte := rfl

theorem Memory.read_write_self {m : Memory} (h : m.wf) (a : Nat) (v : Byte) : (m.write a v).read a = v :=
  lookupCell_storeCell_self h.1 a v

theorem Memory.read_write_of_ne (m : Memory) {a c : Nat} (v : Byte) (h : c ≠ a) :
    (m.write a v).read c = m.read c :=
  lookupCell_storeCell_of_ne m.cells v h

theorem Memory.wf_empty : (Memory.mk []).wf := ⟨List.Pairwise.nil, fun _ h => by cases h⟩

theorem Memory.within_empty (n : Nat) : (Memory.mk []).within n := fun _ h => by cases h

theorem Memory.wf_write {m : Memory} (h : m.wf) (a : Nat) (v : Byte) : (m.write a v).wf :=
  ⟨storeCell_pairwise h.1 a v, fun p hp => by
    rcases mem_storeCell hp with ⟨rfl, hv⟩ | hp
    · exact hv
    · exact h.2 p hp⟩

theorem Memory.within_write {m : Memory} {n : Nat} (h : m.within n) {a : Nat} (ha : a < n) (v : Byte) :
    (m.write a v).within n := fun p hp => by
  rcases mem_storeCell hp with ⟨rfl, -⟩ | hp
  · exact ha
  · exact h p hp

/-! Several bytes. -/

theorem Memory.wf_writeLE {m : Memory} (h : m.wf) (a n : Nat) (v : Word) : (m.writeLE a n v).wf := by
  induction n generalizing m a v with
  | zero => exact h
  | succ n ih => exact ih (Memory.wf_write h a _) (a + 1) _

theorem Memory.within_writeLE {m : Memory} {size : Nat} (h : m.within size) {a n : Nat} (hn : a + n ≤ size)
    (v : Word) : (m.writeLE a n v).within size := by
  induction n generalizing m a v with
  | zero => exact h
  | succ n ih => exact ih (Memory.within_write h (by omega) _) (by omega) _

theorem Memory.wf_load {m : Memory} (h : m.wf) (a : Nat) (bs : List Byte) : (m.load a bs).wf := by
  induction bs generalizing m a with
  | nil => exact h
  | cons b bs ih => exact ih (Memory.wf_write h a b) (a + 1)

theorem Memory.within_load {m : Memory} {size : Nat} (h : m.within size) {a : Nat} {bs : List Byte}
    (hn : a + bs.length ≤ size) : (m.load a bs).within size := by
  induction bs generalizing m a with
  | nil => exact h
  | cons b bs ih =>
    simp only [List.length_cons] at hn
    exact ih (Memory.within_write h (by omega) b) (by omega)

/-- A write of `n` bytes at `a` leaves every other byte alone. -/
theorem Memory.read_writeLE_outside (m : Memory) {a n c : Nat} (v : Word) (h : c < a ∨ a + n ≤ c) :
    (m.writeLE a n v).read c = m.read c := by
  induction n generalizing m a v with
  | zero => rfl
  | succ n ih =>
    simp only [Memory.writeLE]
    rw [ih _ _ (by omega), Memory.read_write_of_ne _ _ (by omega)]

/-- Byte `k` of a write of `n` bytes is bits `8k+7 .. 8k` of the value (R12). -/
theorem Memory.read_writeLE_inside {m : Memory} (hm : m.wf) (a n : Nat) (v : Word) {k : Nat} (hk : k < n) :
    (m.writeLE a n v).read (a + k) = (v >>> (8 * k)).setWidth 8 := by
  induction n generalizing m a v k with
  | zero => omega
  | succ n ih =>
    simp only [Memory.writeLE]
    cases k with
    | zero =>
      rw [Memory.read_writeLE_outside _ _ (by omega)]
      simpa using Memory.read_write_self hm a _
    | succ k =>
      rw [show a + (k + 1) = a + 1 + k by omega, ih (Memory.wf_write hm a _) (a + 1) (v >>> 8) (by omega),
        ← BitVec.shiftRight_add, show 8 + 8 * k = 8 * (k + 1) by omega]

theorem Memory.read_load_outside (m : Memory) {a c : Nat} (bs : List Byte) (h : c < a ∨ a + bs.length ≤ c) :
    (m.load a bs).read c = m.read c := by
  induction bs generalizing m a with
  | nil => rfl
  | cons b bs ih =>
    simp only [List.length_cons] at h
    simp only [Memory.load]
    rw [ih _ (by omega), Memory.read_write_of_ne _ _ (by omega)]

theorem Memory.read_load_inside {m : Memory} (hm : m.wf) (a : Nat) (bs : List Byte) {k : Nat} (hk : k < bs.length) :
    (m.load a bs).read (a + k) = bs[k] := by
  induction bs generalizing m a k with
  | nil => simp at hk
  | cons b bs ih =>
    simp only [Memory.load]
    cases k with
    | zero =>
      rw [Memory.read_load_outside _ _ (by omega)]
      simpa using Memory.read_write_self hm a b
    | succ k =>
      rw [show a + (k + 1) = a + 1 + k by omega]
      simpa using ih (Memory.wf_write hm a b) (a + 1) (by simpa using hk)

/-- A read of `n` bytes depends on those bytes alone. -/
theorem Memory.readLE_congr {m m' : Memory} {a n : Nat} (h : ∀ k, k < n → m.read (a + k) = m'.read (a + k)) :
    m.readLE a n = m'.readLE a n := by
  induction n generalizing a with
  | zero => rfl
  | succ n ih =>
    simp only [Memory.readLE]
    rw [ih (fun k hk => by simpa [Nat.add_assoc, Nat.add_comm 1 k] using h (k + 1) (by omega)),
      show m.read a = m'.read a by simpa using h 0 (by omega)]

/-- The value of a read of `n` bytes is below `256 ^ n`, and it is the sum of the bytes, each by its weight (R12). -/
theorem Memory.readLE_toNat (m : Memory) (a n : Nat) (hn : n ≤ 4) :
    (m.readLE a n).toNat < 256 ^ n ∧
      (m.readLE a n).toNat = ∑ k ∈ Finset.range n, (m.read (a + k)).toNat * 256 ^ k := by
  induction n generalizing a with
  | zero => simp [Memory.readLE]
  | succ n ih =>
    obtain ⟨hlt, hsum⟩ := ih (a + 1) (by omega)
    have hb : (m.read a).toNat < 256 := (m.read a).isLt
    have hpow : (256 : Nat) ^ n ≤ 256 ^ 3 := Nat.pow_le_pow_right (by decide) (by omega)
    have hval : (m.readLE a (n + 1)).toNat = (m.read a).toNat + 256 * (m.readLE (a + 1) n).toNat := by
      have hsmall : (m.readLE (a + 1) n).toNat <<< 8 % 2 ^ 32 = 2 ^ 8 * (m.readLE (a + 1) n).toNat := by
        rw [Nat.shiftLeft_eq, Nat.mul_comm, Nat.mod_eq_of_lt (by omega)]
      simp only [Memory.readLE, BitVec.toNat_or, BitVec.toNat_setWidth, BitVec.toNat_shiftLeft, hsmall]
      rw [Nat.mod_eq_of_lt (by omega), Nat.or_comm, ← Nat.two_pow_add_eq_or_of_lt (by simpa using hb)]
      omega
    refine ⟨by rw [hval, pow_succ]; omega, ?_⟩
    rw [hval, hsum, Finset.sum_range_succ', Finset.mul_sum, Nat.add_comm]
    simp only [Nat.add_zero, pow_zero, Nat.mul_one, Nat.add_right_cancel_iff]
    refine Finset.sum_congr rfl fun k _ => ?_
    rw [show a + 1 + k = a + (k + 1) by omega, pow_succ]
    ring

end Sys2Proof.Machine
end

