-- ==== Sys2Proof/Laws/Exec.lean ====
section
/-! SUPPORT. One lemma per shared operation, saying once everything it can do, and the two inversions later proofs cite:
what an instruction can do to the state (`exec_cases`) and what a step can do (`step_cases`). -/

namespace Sys2Proof.Machine

/-! The operands. -/

/-- The three widths as the scale bytes that name them. -/
theorem accessWidth_of_mem {w : Byte} (h : w ∈ [1#8, 2#8, 4#8]) : accessWidth w = .ok w.toNat := by
  simp only [List.mem_cons, List.not_mem_nil, or_false] at h
  rcases h with rfl | rfl | rfl <;> rfl

theorem accessWidth_of_not_mem {w : Byte} (h : w ∉ [1#8, 2#8, 4#8]) :
    accessWidth w = .error ⟨.badWidth, w.setWidth 32⟩ := by
  simp only [List.mem_cons, List.not_mem_nil, or_false, not_or] at h
  simp [accessWidth, h]

theorem isWidth_iff {w : Byte} : isWidth w = true ↔ w ∈ [1#8, 2#8, 4#8] := by
  simp [isWidth, or_assoc]

/-- A width is at most 4 bytes. -/
theorem width_le_four {w : Byte} (h : w ∈ [1#8, 2#8, 4#8]) : w.toNat ≤ 4 := by
  simp only [List.mem_cons, List.not_mem_nil, or_false] at h
  rcases h with rfl | rfl | rfl <;> decide

/-- The effective address in exact integers (spec/30_encoding.md R86). -/
theorem effectiveAddress_toNat (imm : Word) (disp scale : Byte) :
    ((effectiveAddress imm disp scale).toNat : Int) = ((imm.toNat : Int) + disp.toInt * scale.toNat) % 2 ^ 32 := by
  have hd : (BitVec.ofInt 32 (disp.toInt * scale.toNat)) = disp.signExtend 32 * scale.setWidth 32 := by
    rw [BitVec.ofInt_mul]
    congr 1
    apply BitVec.eq_of_toNat_eq
    simp
  have hi : effectiveAddress imm disp scale = BitVec.ofInt 32 ((imm.toNat : Int) + disp.toInt * scale.toNat) := by
    rw [effectiveAddress, ← hd, BitVec.ofInt_add]
    congr 1
    simp
  rw [hi, BitVec.toNat_ofInt, Int.toNat_of_nonneg (Int.emod_nonneg _ (by decide))]
  norm_num

/-- An address equal to the effective address as an integer is the effective address. -/
theorem eq_effectiveAddress {ea imm : Word} {disp scale : Byte}
    (h : (ea.toNat : Int) = ((imm.toNat : Int) + disp.toInt * scale.toNat) % 2 ^ 32) :
    ea = effectiveAddress imm disp scale := by
  apply BitVec.eq_of_toNat_eq
  have := effectiveAddress_toNat imm disp scale
  omega

/-! The memory primitives (spec/00_scope.md R12). -/

theorem memRead_inside {s : State} {a : Word} {n : Nat} (h : a.toNat + n ≤ s.cfg.memSize) :
    memRead s a n = .ok (s.mem.readLE a.toNat n) := by
  simp [memRead, h]

theorem memRead_outside {s : State} {a : Word} {n : Nat} (h : s.cfg.memSize < a.toNat + n) :
    memRead s a n = .error ⟨.addressOutOfRange, a⟩ := by
  simp [memRead, h]

theorem memWrite_inside {s : State} {a : Word} {n : Nat} (v : Word) (h : a.toNat + n ≤ s.cfg.memSize) :
    memWrite s a n v = .ok { s with mem := s.mem.writeLE a.toNat n v } := by
  simp [memWrite, h]

theorem memWrite_outside {s : State} {a : Word} {n : Nat} (v : Word) (h : s.cfg.memSize < a.toNat + n) :
    memWrite s a n v = .error ⟨.addressOutOfRange, a⟩ := by
  simp [memWrite, h]

/-- Reading back what was written: the low `n` bytes of the value (spec/42_load_store.md R144). -/
theorem Memory.readLE_of_bytes {m : Memory} {a n : Nat} {v : Word} (hn : n ≤ 4)
    (h : ∀ k, k < n → m.read (a + k) = (v >>> (8 * k)).setWidth 8) :
    (m.readLE a n).toNat = v.toNat % 2 ^ (8 * n) := by
  rw [(m.readLE_toNat a n hn).2]
  have hb : ∀ k, k < n → (m.read (a + k)).toNat = v.toNat / 256 ^ k % 256 := fun k hk => by
    rw [h k hk, BitVec.toNat_setWidth, BitVec.toNat_ushiftRight, Nat.shiftRight_eq_div_pow, pow_mul]
    norm_num
  rw [Finset.sum_congr rfl fun k hk => by rw [hb k (Finset.mem_range.mp hk)]]
  have hv := v.isLt
  rcases (show n = 0 ∨ n = 1 ∨ n = 2 ∨ n = 3 ∨ n = 4 by omega) with rfl | rfl | rfl | rfl | rfl <;>
    simp only [Finset.sum_range_succ, Finset.sum_range_zero] <;> norm_num <;> omega

/-! The parts of the handlers. -/

theorem loadFrom_completes {s : State} {a : Word} {w : Byte} (r : Reg) (hw : w ∈ [1#8, 2#8, 4#8])
    (h : a.toNat + w.toNat ≤ s.cfg.memSize) :
    loadFrom r a w s = .ok (s.setReg r (s.mem.readLE a.toNat w.toNat)).advance := by
  simp only [loadFrom, accessWidth_of_mem hw, memRead_inside h, bind, Except.bind, pure, Except.pure]

theorem loadFrom_badWidth {s : State} {w : Byte} (r : Reg) (a : Word) (hw : w ∉ [1#8, 2#8, 4#8]) :
    loadFrom r a w s = .error ⟨.badWidth, w.setWidth 32⟩ := by
  simp only [loadFrom, accessWidth_of_not_mem hw, bind, Except.bind]

theorem loadFrom_outside {s : State} {a : Word} {w : Byte} (r : Reg) (hw : w ∈ [1#8, 2#8, 4#8])
    (h : s.cfg.memSize < a.toNat + w.toNat) :
    loadFrom r a w s = .error ⟨.addressOutOfRange, a⟩ := by
  simp only [loadFrom, accessWidth_of_mem hw, memRead_outside h, bind, Except.bind]

theorem storeTo_completes {s : State} {a : Word} {w : Byte} (v : Word) (hw : w ∈ [1#8, 2#8, 4#8])
    (h : a.toNat + w.toNat ≤ s.cfg.memSize) :
    storeTo a w v s = .ok { s with mem := s.mem.writeLE a.toNat w.toNat v }.advance := by
  simp only [storeTo, accessWidth_of_mem hw, memWrite_inside v h, bind, Except.bind, pure, Except.pure]

theorem storeTo_badWidth {s : State} {w : Byte} (a v : Word) (hw : w ∉ [1#8, 2#8, 4#8]) :
    storeTo a w v s = .error ⟨.badWidth, w.setWidth 32⟩ := by
  simp only [storeTo, accessWidth_of_not_mem hw, bind, Except.bind]

theorem storeTo_outside {s : State} {a : Word} {w : Byte} (v : Word) (hw : w ∈ [1#8, 2#8, 4#8])
    (h : s.cfg.memSize < a.toNat + w.toNat) :
    storeTo a w v s = .error ⟨.addressOutOfRange, a⟩ := by
  simp only [storeTo, accessWidth_of_mem hw, memWrite_outside v h, bind, Except.bind]

/-- The port byte read by trap 1 is the byte at the port. -/
theorem readLE_one_byte (m : Memory) (a : Nat) : (m.readLE a 1).setWidth 8 = m.read a := by
  simp [Memory.readLE]

theorem emitPort_completes {s : State} (h : outPort.toNat < s.cfg.memSize) :
    emitPort s = .ok (s.emit (s.mem.read outPort.toNat)) := by
  simp only [emitPort, memRead_inside (show outPort.toNat + 1 ≤ s.cfg.memSize from h), bind, Except.bind, pure,
    Except.pure, readLE_one_byte]

theorem emitPort_outside {s : State} (h : s.cfg.memSize ≤ outPort.toNat) :
    emitPort s = .error ⟨.addressOutOfRange, outPort⟩ := by
  simp only [emitPort, memRead_outside (show s.cfg.memSize < outPort.toNat + 1 by omega), bind, Except.bind]

/-- The trap table's one effect (spec/44_system.md R171). -/
theorem trapTable_emit (s : State) : trapTable trapEmit s = emitPort s := if_pos rfl

theorem trapTable_unknown {code : Word} (h : code ≠ trapEmit) (s : State) :
    trapTable code s = .error ⟨.unknownTrap, code⟩ := if_neg h

/-! Ending a handler. -/

@[simp] theorem finish_ok (o : Opcode) (s t : State) : finish o s (.ok t) = .next t := rfl

@[simp] theorem finish_error (o : Opcode) (s : State) (e : Raise) :
    finish o s (.error e) = .next (takeFault ⟨e.cause, e.value, s.pc, some o.toByte⟩ s) := rfl

/-- A raise is the Faulted state the statements speak of (spec/60_exceptions.md R193, R195). -/
theorem finish_error_faults (o : Opcode) (s : State) (cause : FaultCause) (value : Word) :
    FaultsWith (finish o s (.error ⟨cause, value⟩)) s cause value (some o.toByte) :=
  ⟨_, rfl, rfl, untouched_takeFault _ s⟩

/-! The instructions whose effect depends on a condition, one equation per outcome.  The others are equations by
`rfl`. -/

theorem exec_brc_taken {s : State} {mask : Byte} (addr : Word) (disp scale : Byte) (h : s.flags &&& mask ≠ 0#8) :
    exec (.brc mask addr disp scale) s = .next (s.jump (effectiveAddress addr disp scale)) := by
  simp [exec, execBrc, branchTaken, h]

theorem exec_brc_notTaken {s : State} {mask : Byte} (addr : Word) (disp scale : Byte) (h : s.flags &&& mask = 0#8) :
    exec (.brc mask addr disp scale) s = .next s.advance := by
  simp [exec, execBrc, branchTaken, h]

theorem exec_div_completes {imm : Word} (r : Reg) (s : State) (h : imm ≠ 0#32) :
    exec (.div r imm) s = .next (s.setReg r (quotient s.cfg.divFn (s.reg r) imm)).advance := by
  simp only [exec, execDiv, if_neg h, finish_ok]

theorem exec_ldMem_completes {s : State} {addr : Word} {disp w : Byte} (r : Reg) (hw : w ∈ [1#8, 2#8, 4#8])
    (h : (effectiveAddress addr disp w).toNat + w.toNat ≤ s.cfg.memSize) :
    exec (.ldMem r addr disp w) s
      = .next (s.setReg r (s.mem.readLE (effectiveAddress addr disp w).toNat w.toNat)).advance := by
  simp only [exec, execLdMem, loadFrom_completes r hw h, finish_ok]

theorem exec_ldr_completes {s : State} {r2 : Reg} {w : Byte} (r1 : Reg) (hw : w ∈ [1#8, 2#8, 4#8])
    (h : (s.reg r2).toNat + w.toNat ≤ s.cfg.memSize) :
    exec (.ldr r1 r2 w) s = .next (s.setReg r1 (s.mem.readLE (s.reg r2).toNat w.toNat)).advance := by
  simp only [exec, execLdr, loadFrom_completes r1 hw h, finish_ok]

theorem exec_st_completes {s : State} {addr : Word} {disp w : Byte} (r : Reg) (hw : w ∈ [1#8, 2#8, 4#8])
    (h : (effectiveAddress addr disp w).toNat + w.toNat ≤ s.cfg.memSize) :
    exec (.st r addr disp w) s
      = .next { s with mem := s.mem.writeLE (effectiveAddress addr disp w).toNat w.toNat (s.reg r) }.advance := by
  simp only [exec, execSt, storeTo_completes _ hw h, finish_ok]

theorem exec_brk_completes {s : State} (h : outPort.toNat < s.cfg.memSize) :
    exec (.brk trapEmit) s = .next (s.emit (s.mem.read outPort.toNat)).advance := by
  simp only [exec, execBrk, trapTable_emit, emitPort_completes h, bind, Except.bind, pure, Except.pure, finish_ok]

theorem exec_brk_outside {s : State} (h : s.cfg.memSize ≤ outPort.toNat) :
    exec (.brk trapEmit) s = finish .brk s (.error ⟨.addressOutOfRange, outPort⟩) := by
  simp only [exec, execBrk, trapTable_emit, emitPort_outside h, bind, Except.bind]

theorem exec_brk_unknown {code : Word} (h : code ≠ trapEmit) (s : State) :
    exec (.brk code) s = finish .brk s (.error ⟨.unknownTrap, code⟩) := by
  simp only [exec, execBrk, trapTable_unknown h, bind, Except.bind]

/-! What an instruction can do. -/

/-- The state a completed instruction leaves, one case per shape of effect. -/
inductive Completed (s : State) : Instr → State → Prop where
  | br (addr : Word) (disp scale : Byte) :
      Completed s (.br addr disp scale) (s.jump (effectiveAddress addr disp scale))
  | brcTaken (mask : Byte) (addr : Word) (disp scale : Byte) : s.flags &&& mask ≠ 0#8 →
      Completed s (.brc mask addr disp scale) (s.jump (effectiveAddress addr disp scale))
  | brcNotTaken (mask : Byte) (addr : Word) (disp scale : Byte) : s.flags &&& mask = 0#8 →
      Completed s (.brc mask addr disp scale) s.advance
  | ldImm (r : Reg) (imm : Word) : Completed s (.ldImm r imm) (s.setReg r imm).advance
  | add (r : Reg) (imm : Word) : Completed s (.add r imm) (s.setReg r (s.reg r + imm)).advance
  | sub (r : Reg) (imm : Word) : Completed s (.sub r imm) (s.setReg r (s.reg r - imm)).advance
  | mul (r : Reg) (imm : Word) : Completed s (.mul r imm) (s.setReg r (s.reg r * imm)).advance
  | div (r : Reg) (imm : Word) : imm ≠ 0#32 →
      Completed s (.div r imm) (s.setReg r (quotient s.cfg.divFn (s.reg r) imm)).advance
  | ldMem (r : Reg) (addr : Word) (disp scale : Byte) : scale ∈ [1#8, 2#8, 4#8] →
      (effectiveAddress addr disp scale).toNat + scale.toNat ≤ s.cfg.memSize →
      Completed s (.ldMem r addr disp scale)
        (s.setReg r (s.mem.readLE (effectiveAddress addr disp scale).toNat scale.toNat)).advance
  | ldr (r1 r2 : Reg) (scale : Byte) : scale ∈ [1#8, 2#8, 4#8] →
      (s.reg r2).toNat + scale.toNat ≤ s.cfg.memSize →
      Completed s (.ldr r1 r2 scale) (s.setReg r1 (s.mem.readLE (s.reg r2).toNat scale.toNat)).advance
  | st (r : Reg) (addr : Word) (disp scale : Byte) : scale ∈ [1#8, 2#8, 4#8] →
      (effectiveAddress addr disp scale).toNat + scale.toNat ≤ s.cfg.memSize →
      Completed s (.st r addr disp scale)
        { s with mem := s.mem.writeLE (effectiveAddress addr disp scale).toNat scale.toNat (s.reg r) }.advance
  | cpr (r : Reg) (imm : Word) :
      Completed s (.cpr r imm) { s with flags := compareFlags s.cfg (s.reg r - imm) s.flags }.advance
  | stp : Completed s .stp { s.advance with status := .halted }
  | brk : outPort.toNat < s.cfg.memSize →
      Completed s (.brk trapEmit) (s.emit (s.mem.read outPort.toNat)).advance

/-- The fault an instruction's own checks meet (spec/60_exceptions.md R196, step 4). -/
inductive Raises (s : State) : Instr → Raise → Prop where
  | divideByZero (r : Reg) : Raises s (.div r 0#32) ⟨.divideByZero, 0#32⟩
  | ldMemWidth (r : Reg) (addr : Word) (disp scale : Byte) : scale ∉ [1#8, 2#8, 4#8] →
      Raises s (.ldMem r addr disp scale) ⟨.badWidth, scale.setWidth 32⟩
  | ldMemAddress (r : Reg) (addr : Word) (disp scale : Byte) : scale ∈ [1#8, 2#8, 4#8] →
      s.cfg.memSize < (effectiveAddress addr disp scale).toNat + scale.toNat →
      Raises s (.ldMem r addr disp scale) ⟨.addressOutOfRange, effectiveAddress addr disp scale⟩
  | ldrWidth (r1 r2 : Reg) (scale : Byte) : scale ∉ [1#8, 2#8, 4#8] →
      Raises s (.ldr r1 r2 scale) ⟨.badWidth, scale.setWidth 32⟩
  | ldrAddress (r1 r2 : Reg) (scale : Byte) : scale ∈ [1#8, 2#8, 4#8] →
      s.cfg.memSize < (s.reg r2).toNat + scale.toNat →
      Raises s (.ldr r1 r2 scale) ⟨.addressOutOfRange, s.reg r2⟩
  | stWidth (r : Reg) (addr : Word) (disp scale : Byte) : scale ∉ [1#8, 2#8, 4#8] →
      Raises s (.st r addr disp scale) ⟨.badWidth, scale.setWidth 32⟩
  | stAddress (r : Reg) (addr : Word) (disp scale : Byte) : scale ∈ [1#8, 2#8, 4#8] →
      s.cfg.memSize < (effectiveAddress addr disp scale).toNat + scale.toNat →
      Raises s (.st r addr disp scale) ⟨.addressOutOfRange, effectiveAddress addr disp scale⟩
  | unknownTrap (code : Word) : code ≠ trapEmit → Raises s (.brk code) ⟨.unknownTrap, code⟩
  | port : s.cfg.memSize ≤ outPort.toNat → Raises s (.brk trapEmit) ⟨.addressOutOfRange, outPort⟩

/-- Every instruction either completes or raises, and `exec` answers accordingly: it always answers a next state. -/
theorem exec_cases (i : Instr) (s : State) :
    (∃ t, exec i s = .next t ∧ Completed s i t) ∨
      ∃ e, exec i s = finish i.opcode s (.error e) ∧ Raises s i e := by
  cases i with
  | br addr disp scale => exact .inl ⟨_, rfl, .br ..⟩
  | brc mask addr disp scale =>
    left
    by_cases h : s.flags &&& mask = 0#8
    · exact ⟨_, exec_brc_notTaken addr disp scale h, .brcNotTaken _ _ _ _ h⟩
    · exact ⟨_, exec_brc_taken addr disp scale h, .brcTaken _ _ _ _ h⟩
  | ldImm r imm => exact .inl ⟨_, rfl, .ldImm ..⟩
  | add r imm => exact .inl ⟨_, rfl, .add ..⟩
  | sub r imm => exact .inl ⟨_, rfl, .sub ..⟩
  | mul r imm => exact .inl ⟨_, rfl, .mul ..⟩
  | div r imm =>
    by_cases h : imm = 0#32
    · subst h
      exact .inr ⟨_, rfl, .divideByZero r⟩
    · exact .inl ⟨_, exec_div_completes r s h, .div r imm h⟩
  | ldMem r addr disp scale =>
    by_cases hw : scale ∈ [1#8, 2#8, 4#8]
    · by_cases h : (effectiveAddress addr disp scale).toNat + scale.toNat ≤ s.cfg.memSize
      · exact .inl ⟨_, exec_ldMem_completes r hw h, .ldMem r addr disp scale hw h⟩
      · exact .inr ⟨_, congrArg (finish .ldMem s) (loadFrom_outside r hw (Nat.lt_of_not_le h)),
          .ldMemAddress r addr disp scale hw (Nat.lt_of_not_le h)⟩
    · exact .inr ⟨_, congrArg (finish .ldMem s) (loadFrom_badWidth r _ hw), .ldMemWidth r addr disp scale hw⟩
  | ldr r1 r2 scale =>
    by_cases hw : scale ∈ [1#8, 2#8, 4#8]
    · by_cases h : (s.reg r2).toNat + scale.toNat ≤ s.cfg.memSize
      · exact .inl ⟨_, exec_ldr_completes r1 hw h, .ldr r1 r2 scale hw h⟩
      · exact .inr ⟨_, congrArg (finish .ldr s) (loadFrom_outside r1 hw (Nat.lt_of_not_le h)),
          .ldrAddress r1 r2 scale hw (Nat.lt_of_not_le h)⟩
    · exact .inr ⟨_, congrArg (finish .ldr s) (loadFrom_badWidth r1 _ hw), .ldrWidth r1 r2 scale hw⟩
  | st r addr disp scale =>
    by_cases hw : scale ∈ [1#8, 2#8, 4#8]
    · by_cases h : (effectiveAddress addr disp scale).toNat + scale.toNat ≤ s.cfg.memSize
      · exact .inl ⟨_, exec_st_completes r hw h, .st r addr disp scale hw h⟩
      · exact .inr ⟨_, congrArg (finish .st s) (storeTo_outside _ hw (Nat.lt_of_not_le h)),
          .stAddress r addr disp scale hw (Nat.lt_of_not_le h)⟩
    · exact .inr ⟨_, congrArg (finish .st s) (storeTo_badWidth _ _ hw), .stWidth r addr disp scale hw⟩
  | cpr r imm => exact .inl ⟨_, rfl, .cpr ..⟩
  | stp => exact .inl ⟨_, rfl, .stp⟩
  | brk code =>
    by_cases hc : code = trapEmit
    · subst hc
      by_cases h : outPort.toNat < s.cfg.memSize
      · exact .inl ⟨_, exec_brk_completes h, .brk h⟩
      · exact .inr ⟨_, exec_brk_outside (Nat.le_of_not_lt h), .port (Nat.le_of_not_lt h)⟩
    · exact .inr ⟨_, exec_brk_unknown hc s, .unknownTrap code hc⟩

/-- The converse: what `Completed` says is what `exec` answers. -/
theorem exec_of_completed {i : Instr} {s t : State} (h : Completed s i t) : exec i s = .next t := by
  cases h with
  | br => rfl
  | brcTaken mask addr disp scale h => exact exec_brc_taken addr disp scale h
  | brcNotTaken mask addr disp scale h => exact exec_brc_notTaken addr disp scale h
  | ldImm => rfl
  | add => rfl
  | sub => rfl
  | mul => rfl
  | div r imm h => exact exec_div_completes r s h
  | ldMem r addr disp scale hw h => exact exec_ldMem_completes r hw h
  | ldr r1 r2 scale hw h => exact exec_ldr_completes r1 hw h
  | st r addr disp scale hw h => exact exec_st_completes r hw h
  | cpr => rfl
  | stp => rfl
  | brk h => exact exec_brk_completes h

/-- The converse for a fault. -/
theorem exec_of_raises {i : Instr} {s : State} {e : Raise} (h : Raises s i e) :
    exec i s = .next (takeFault ⟨e.cause, e.value, s.pc, some i.opcode.toByte⟩ s) := by
  cases h with
  | divideByZero r => rfl
  | ldMemWidth r addr disp scale hw => exact congrArg (finish .ldMem s) (loadFrom_badWidth r _ hw)
  | ldMemAddress r addr disp scale hw h => exact congrArg (finish .ldMem s) (loadFrom_outside r hw h)
  | ldrWidth r1 r2 scale hw => exact congrArg (finish .ldr s) (loadFrom_badWidth r1 _ hw)
  | ldrAddress r1 r2 scale hw h => exact congrArg (finish .ldr s) (loadFrom_outside r1 hw h)
  | stWidth r addr disp scale hw => exact congrArg (finish .st s) (storeTo_badWidth _ _ hw)
  | stAddress r addr disp scale hw h => exact congrArg (finish .st s) (storeTo_outside _ hw h)
  | unknownTrap code h => exact exec_brk_unknown h s
  | port h => exact exec_brk_outside h

/-- A completed instruction does not fault the core. -/
theorem Completed.status {s t : State} {i : Instr} (h : Completed s i t) :
    t.status = s.status ∨ (i = .stp ∧ t.status = .halted) := by
  cases h <;> first | exact .inl rfl | exact .inr ⟨rfl, rfl⟩

/-! What a step can do. -/

/-- The fetch faults of R90 and R196, or the fetched instruction. -/
theorem fetch_cases (s : State) :
    (s.cfg.memSize ≤ s.pc.toNat ∧ fetch s = .error ⟨.addressOutOfRange, s.pc, s.pc, none⟩) ∨
    (s.pc.toNat < s.cfg.memSize ∧ Opcode.ofByte s.opAt = none ∧
      fetch s = .error ⟨.unknownOpcode, s.opAt.setWidth 32, s.pc, some s.opAt⟩) ∨
    (s.pc.toNat < s.cfg.memSize ∧ s.cfg.memSize < s.pc.toNat + 8 ∧ (∃ o, Opcode.ofByte s.opAt = some o) ∧
      fetch s = .error ⟨.addressOutOfRange, s.pc + 1#32, s.pc, some s.opAt⟩) ∨
    (s.pc.toNat + 8 ≤ s.cfg.memSize ∧ ∃ o, Opcode.ofByte s.opAt = some o ∧
      fetch s = .ok (assemble o (fetchOperands s.mem s.pc.toNat))) := by
  simp only [fetch, State.inRange, State.opAt]
  by_cases h1 : s.cfg.memSize ≤ s.pc.toNat
  · exact .inl ⟨h1, by rw [if_neg (by omega)]⟩
  · right
    rw [if_pos (show s.pc.toNat + 1 ≤ s.cfg.memSize by omega)]
    cases ho : Opcode.ofByte (s.mem.read s.pc.toNat) with
    | none => exact .inl ⟨by omega, rfl, rfl⟩
    | some o =>
      right
      by_cases h8 : s.pc.toNat + 8 ≤ s.cfg.memSize
      · exact .inr ⟨h8, o, rfl, by simp only [if_pos h8]⟩
      · exact .inl ⟨by omega, by omega, ⟨o, rfl⟩, by simp only [if_neg h8]⟩

theorem step_of_running {s : State} (h : s.status = .running) :
    step s = match fetch s with
      | .ok i => exec i s
      | .error r => .next (takeFault r s) := by
  cases hf : fetch s <;> simp only [step, h, hf]

/-- A step that answers a next state ran from Running: a fetch fault, or the fetched instruction. -/
theorem step_cases {s t : State} (h : step s = .next t) :
    s.status = .running ∧
      ((∃ r, fetch s = .error r ∧ t = takeFault r s) ∨
       (∃ i, fetch s = .ok i ∧ Completed s i t) ∨
       ∃ i e, fetch s = .ok i ∧ Raises s i e ∧ t = takeFault ⟨e.cause, e.value, s.pc, some i.opcode.toByte⟩ s) := by
  have hs : s.status = .running := by
    cases hs : s.status with
    | running => rfl
    | halted => simp [step, hs] at h
    | faulted r => simp [step, hs] at h
  refine ⟨hs, ?_⟩
  rw [step_of_running hs] at h
  cases hf : fetch s with
  | error r =>
    simp only [hf, Host.Outcome.next.injEq] at h
    exact .inl ⟨r, rfl, h.symm⟩
  | ok i =>
    simp only [hf] at h
    rcases exec_cases i s with ⟨t', he, hc⟩ | ⟨e, he, hr⟩
    · rw [he, Host.Outcome.next.injEq] at h
      exact .inr (.inl ⟨i, rfl, h ▸ hc⟩)
    · rw [he, finish_error, Host.Outcome.next.injEq] at h
      exact .inr (.inr ⟨i, e, rfl, hr, h.symm⟩)

end Sys2Proof.Machine
end

