-- ==== Sys2Proof/Laws/Flags.lean ====
section
/-! SUPPORT. The laws of CPR's flag computation: nothing is cleared, and nothing but Z and N is set
(spec/43_compare.md R160, R161). -/

namespace Sys2Proof.Machine

/-- AND distributes over OR from the right. -/
theorem byte_or_and (a b c : Byte) : (a ||| b) &&& c = (a &&& c) ||| (b &&& c) := by
  ext i hi
  simp [Bool.and_or_distrib_right]

/-- ORing bits in keeps every bit that was set. -/
theorem and_or_or_self (f a b : Byte) : f &&& (f ||| a ||| b) = f := by
  ext i hi
  simp
  tauto

theorem left_and_not_or (z n : Byte) : z &&& ~~~(z ||| n) = 0#8 := by
  ext i hi
  simp
  intro h1 h2
  simp_all

theorem right_and_not_or (z n : Byte) : n &&& ~~~(z ||| n) = 0#8 := by
  ext i hi
  simp
  intros
  assumption

/-- CPR clears no flag. -/
theorem compareFlags_keeps (c : Config) (d : Word) (f : Byte) : f &&& compareFlags c d f = f :=
  and_or_or_self f _ _

/-- CPR sets no bit other than Z and N. -/
theorem compareFlags_outside (c : Config) (d : Word) (f : Byte) :
    compareFlags c d f &&& ~~~(c.flagZMask ||| c.flagNMask) = f &&& ~~~(c.flagZMask ||| c.flagNMask) := by
  have hz := left_and_not_or c.flagZMask c.flagNMask
  have hn := right_and_not_or c.flagZMask c.flagNMask
  rw [compareFlags, byte_or_and, byte_or_and]
  split <;> split <;> simp [hz, hn]

end Sys2Proof.Machine
end

