-- ==== Sys2Proof/Laws/PerInstr.lean ====
section
/-! SUPPORT. Statements made instruction by instruction. -/

/-! The opcode byte of each instruction's encoding is the one R95 gives it, and the encoding is eight bytes. -/
namespace Sys2Proof.Laws.EncodedForm

/-- The encoding is eight bytes and starts with the byte of the instruction's opcode, which names that opcode. -/
def Statement (i : Instr) : Prop :=
  (encode i).length = 8 ∧ (encode i).head? = some i.opcode.toByte ∧ Opcode.ofByte i.opcode.toByte = some i.opcode

theorem br (addr : Word) (disp scale : Byte) : Statement (.br addr disp scale) := ⟨rfl, rfl, Opcode.ofByte_toByte _⟩
theorem brc (mask : Byte) (addr : Word) (disp scale : Byte) : Statement (.brc mask addr disp scale) :=
  ⟨rfl, rfl, Opcode.ofByte_toByte _⟩
theorem ldImm (r : Reg) (imm : Word) : Statement (.ldImm r imm) := ⟨rfl, rfl, Opcode.ofByte_toByte _⟩
theorem add (r : Reg) (imm : Word) : Statement (.add r imm) := ⟨rfl, rfl, Opcode.ofByte_toByte _⟩
theorem sub (r : Reg) (imm : Word) : Statement (.sub r imm) := ⟨rfl, rfl, Opcode.ofByte_toByte _⟩
theorem mul (r : Reg) (imm : Word) : Statement (.mul r imm) := ⟨rfl, rfl, Opcode.ofByte_toByte _⟩
theorem div (r : Reg) (imm : Word) : Statement (.div r imm) := ⟨rfl, rfl, Opcode.ofByte_toByte _⟩
theorem ldMem (r : Reg) (addr : Word) (disp scale : Byte) : Statement (.ldMem r addr disp scale) :=
  ⟨rfl, rfl, Opcode.ofByte_toByte _⟩
theorem ldr (r1 r2 : Reg) (scale : Byte) : Statement (.ldr r1 r2 scale) := ⟨rfl, rfl, Opcode.ofByte_toByte _⟩
theorem st (r : Reg) (addr : Word) (disp scale : Byte) : Statement (.st r addr disp scale) :=
  ⟨rfl, rfl, Opcode.ofByte_toByte _⟩
theorem cpr (r : Reg) (imm : Word) : Statement (.cpr r imm) := ⟨rfl, rfl, Opcode.ofByte_toByte _⟩
theorem stp : Statement .stp := ⟨rfl, rfl, Opcode.ofByte_toByte _⟩
theorem brk (code : Word) : Statement (.brk code) := ⟨rfl, rfl, Opcode.ofByte_toByte _⟩

end Sys2Proof.Laws.EncodedForm
end

