-- ==== Sys2Proof/Laws/Run.lean ====
section
/-! SUPPORT. The induction over a run, once, and fetching decoded bytes. -/

namespace Sys2Proof.Machine

/-- What every step keeps, every run keeps. -/
theorem run_keeps {P : State → Prop} (hstep : ∀ s t, P s → step s = .next t → P t) (k : Nat) (s t : State)
    (hs : P s) (h : Sys2Proof.core.run k s = .next t) : P t := by
  induction k generalizing s with
  | zero =>
    cases h
    exact hs
  | succ k ih =>
    simp only [Host.Core.run] at h
    cases hst : step s with
    | next s' =>
      rw [show Sys2Proof.core.step s = .next s' from hst] at h
      exact ih s' (hstep s s' hs hst) h
    | fault r =>
      rw [show Sys2Proof.core.step s = .fault r from hst] at h
      cases h
    | refused r =>
      rw [show Sys2Proof.core.step s = .refused r from hst] at h
      cases h

/-- Eight bytes in memory at `pc` that decode to an instruction are fetched as that instruction. -/
theorem fetch_of_decode {s : State} {i : Instr} (h8 : s.pc.toNat + 8 ≤ s.cfg.memSize)
    (hd : decode ((List.range 8).map (fun k => s.mem.read (s.pc.toNat + k))) = .ok (i, [])) :
    fetch s = .ok i := by
  obtain ⟨o, rs, disp, scale, b0, b1, b2, b3, hb, rfl⟩ := decode_ok hd
  simp only [List.range, List.range.loop, List.map_cons, List.map_nil, List.cons.injEq, and_true, Nat.add_zero] at hb
  obtain ⟨h0, h1, h2, h3, h4, h5, h6, h7⟩ := hb
  rcases fetch_cases s with h | h | h | h
  · omega
  · rw [State.opAt, h0, Opcode.ofByte_toByte] at h
    simp at h
  · omega
  · obtain ⟨-, o', ho, hf⟩ := h
    rw [State.opAt, h0, Opcode.ofByte_toByte] at ho
    cases ho
    rw [hf]
    simp only [fetchOperands, h1, h2, h3, h4, h5, h6, h7]

end Sys2Proof.Machine
end

