-- ==== Sys2Proof/Tests/Slice0.lean ====
section
/-! SUPPORT. The model's own tests.  Every expected value is a vector of spec/95_test_vectors.md (V1 to V93, W1 to W11) or
an example of the rule a test names; the last part shows for each statement with hypotheses a state that meets them. -/

namespace Sys2Proof.Tests

open Sys2Proof.Machine

/-- A Running core of the reference configuration at `a`, with some bytes there (section 0 of spec/95: `ia` = 0x100). -/
def code (a : Nat) (bytes : List Byte) : State :=
  { State.reset with pc := BitVec.ofNat 32 a, mem := (Memory.mk []).load a bytes }

/-- Bytes laid out in memory beside the code. -/
def State.withBytes (s : State) (a : Nat) (bytes : List Byte) : State := { s with mem := s.mem.load a bytes }

/-- The answer is a next state with this property. -/
def nextSat (o : Result) (p : State → Bool) : Bool :=
  match o with
  | .next t => p t
  | .fault _ => false
  | .refused _ => false

/-- The answer is the Faulted state with this record. -/
def faults (o : Result) (r : FaultRecord) : Bool := nextSat o (fun t => t.status = .faulted r)

/-- Memory as spec/95 section 2.4 has it: `M[0x1000..0x1004]` = 88 99 AA BB CC. -/
def withData (s : State) : State := State.withBytes s 0x1000 [0x88#8, 0x99#8, 0xAA#8, 0xBB#8, 0xCC#8]

/-! Well-formedness: an ill-formed term for each check, which the check refuses. -/

theorem test_wellFormed_div_zero : (Instr.div .a 0#32).wellFormed = false := by decide
theorem test_wellFormed_ldMem_width : (Instr.ldMem .a 0x1000#32 0#8 3#8).wellFormed = false := by decide
theorem test_wellFormed_ldr_width : (Instr.ldr .b .c 8#8).wellFormed = false := by decide
theorem test_wellFormed_st_width : (Instr.st .a 0x3000#32 0#8 5#8).wellFormed = false := by decide
theorem test_wellFormed_brk_code : (Instr.brk 0x01000001#32).wellFormed = false := by decide
theorem test_wellFormed_accepts : (Instr.st .a 0x3000#32 0#8 4#8).wellFormed = true := by decide

/-! Decoding: for every constructor a word of the spec, byte by byte. -/

/-- V2. -/
theorem test_decode_br : decode [0x20#8, 0x00#8, 0x10#8, 0x08#8, 0x00#8, 0x02#8, 0x00#8, 0x00#8]
    = .ok (.br 0x200#32 0x10#8 0x08#8, []) := by decide
/-- W4. -/
theorem test_decode_brc : decode [0x21#8, 0x01#8, 0x02#8, 0x04#8, 0x00#8, 0x02#8, 0x00#8, 0x00#8]
    = .ok (.brc 0x01#8 0x200#32 0x02#8 0x04#8, []) := by decide
/-- W1, and V21 with every ignored bit set. -/
theorem test_decode_ldImm : decode [0x40#8, 0x02#8, 0x00#8, 0x00#8, 0x78#8, 0x56#8, 0x34#8, 0x12#8]
    = .ok (.ldImm .c 0x12345678#32, []) := by decide
theorem test_decode_ldImm_ignored : decode [0x40#8, 0xFF#8, 0x77#8, 0x99#8, 0x00#8, 0x00#8, 0x00#8, 0x00#8]
    = .ok (.ldImm .d 0#32, []) := by decide
/-- V23. -/
theorem test_decode_add : decode [0x41#8, 0x01#8, 0x00#8, 0x00#8, 0x01#8, 0x00#8, 0x00#8, 0x00#8]
    = .ok (.add .b 1#32, []) := by decide
/-- V27. -/
theorem test_decode_sub : decode [0x42#8, 0x01#8, 0x00#8, 0x00#8, 0x05#8, 0x00#8, 0x00#8, 0x00#8]
    = .ok (.sub .b 5#32, []) := by decide
/-- R123's example. -/
theorem test_decode_mul : decode [0x43#8, 0x02#8, 0x00#8, 0x00#8, 0x07#8, 0x00#8, 0x00#8, 0x00#8]
    = .ok (.mul .c 7#32, []) := by decide
/-- V38. -/
theorem test_decode_div : decode [0x44#8, 0x00#8, 0x00#8, 0x00#8, 0x64#8, 0x00#8, 0x00#8, 0x00#8]
    = .ok (.div .a 100#32, []) := by decide
/-- R140's example. -/
theorem test_decode_ldMem : decode [0x50#8, 0x02#8, 0x01#8, 0x02#8, 0xFE#8, 0x0F#8, 0x00#8, 0x00#8]
    = .ok (.ldMem .c 0x0FFE#32 0x01#8 0x02#8, []) := by decide
/-- V54: displacement and immediate ignored. -/
theorem test_decode_ldr : decode [0x51#8, 0x09#8, 0x55#8, 0x01#8, 0x99#8, 0x09#8, 0x00#8, 0x00#8]
    = .ok (.ldr .b .c 0x01#8, []) := by decide
/-- V60. -/
theorem test_decode_st : decode [0x58#8, 0x03#8, 0xFC#8, 0x04#8, 0x10#8, 0x30#8, 0x00#8, 0x00#8]
    = .ok (.st .d 0x3010#32 0xFC#8 0x04#8, []) := by decide
/-- R160's example. -/
theorem test_decode_cpr : decode [0xC0#8, 0x00#8, 0x00#8, 0x00#8, 0x07#8, 0x00#8, 0x00#8, 0x00#8]
    = .ok (.cpr .a 7#32, []) := by decide
/-- V74: every operand byte ignored. -/
theorem test_decode_stp : decode [0xF0#8, 0xAB#8, 0xCD#8, 0xEF#8, 0x78#8, 0x56#8, 0x34#8, 0x12#8]
    = .ok (.stp, []) := by decide
/-- V79. -/
theorem test_decode_brk : decode [0xF1#8, 0x00#8, 0x00#8, 0x00#8, 0x01#8, 0x00#8, 0x00#8, 0x01#8]
    = .ok (.brk 0x01000001#32, []) := by decide
/-- V83, V84, V85, V86, V87, V88 and V82: neighbours of legal opcodes, and the ends of the byte. -/
theorem test_decode_illegal :
    [0x22#8, 0x45#8, 0x59#8, 0xC1#8, 0xF2#8, 0xFF#8, 0x00#8].map Opcode.ofByte = List.replicate 7 none := by decide
/-- R97: the encoder writes unused fields as 0 (the bytes of V54 but for its ignored fields). -/
theorem test_encode_ldr : encode (.ldr .b .c 1#8)
    = [0x51#8, 0x09#8, 0x00#8, 0x01#8, 0x00#8, 0x00#8, 0x00#8, 0x00#8] := by decide
/-- The table numbers the bits of an instruction from the first byte up. -/
theorem test_decodeTableWord : decodeTableWord 64 0x1002000158 = some (.st .b 0x10#32 0#8 2#8) := by decide
theorem test_decodeTableWord_short : decodeTableWord 8 0xFFF0 = some .stp := by decide

/-! One step of each instruction, at most two tests each. -/

/-- V6. -/
theorem test_br_negative : nextSat (step (code 0x100 [0x20#8, 0x00#8, 0x80#8, 0xFF#8, 0x00#8, 0x00#8, 0x01#8, 0x00#8]))
    (fun t => t.pc = 0x8080#32) = true := by decide
/-- V8. -/
theorem test_br_wraps : nextSat (step (code 0x100 [0x20#8, 0xFF#8, 0x04#8, 0x08#8, 0xF0#8, 0xFF#8, 0xFF#8, 0xFF#8]))
    (fun t => t.pc = 0x10#32) = true := by decide
/-- V14. -/
theorem test_brc_taken :
    nextSat (step { code 0x100 [0x21#8, 0x02#8, 0x02#8, 0x04#8, 0x00#8, 0x02#8] with flags := 2#8 })
      (fun t => t.pc = 0x208#32 && t.flags = 2#8) = true := by decide
/-- V17. -/
theorem test_brc_not_taken :
    nextSat (step { code 0x100 [0x21#8, 0xFC#8, 0x00#8, 0x00#8, 0x00#8, 0x02#8] with flags := 3#8 })
      (fun t => t.pc = 0x108#32) = true := by decide
/-- V21. -/
theorem test_ldImm :
    nextSat (step { code 0x100 [0x40#8, 0xFF#8, 0x77#8, 0x99#8] with regs := ⟨1#32, 2#32, 3#32, 4#32⟩ })
      (fun t => t.regs = ⟨1#32, 2#32, 3#32, 0#32⟩) = true := by decide
/-- V24. -/
theorem test_add_wraps :
    nextSat (step { code 0x100 [0x41#8, 0x02#8, 0x00#8, 0x00#8, 0xFF#8, 0xFF#8, 0xFF#8, 0xFF#8] with
        regs := ⟨0#32, 0#32, 5#32, 0#32⟩, flags := 1#8 })
      (fun t => t.reg .c = 4#32 && t.flags = 1#8 && t.pc = 0x108#32) = true := by decide
/-- V25. -/
theorem test_sub_wraps : nextSat (step (code 0x100 [0x42#8, 0x00#8, 0x00#8, 0x00#8, 0x01#8]))
    (fun t => t.reg .a = 0xFFFFFFFF#32 && t.flags = 0#8) = true := by decide
/-- V30. -/
theorem test_mul_low_word :
    nextSat (step { code 0x100 [0x43#8, 0x00#8, 0x00#8, 0x00#8, 0xFF#8, 0xFF#8, 0xFF#8, 0xFF#8] with
        regs := ⟨3#32, 0#32, 0#32, 0#32⟩ })
      (fun t => t.reg .a = 0xFFFFFFFD#32) = true := by decide
/-- V33. -/
theorem test_div_unsigned :
    nextSat (step { code 0x100 [0x44#8, 0x00#8, 0x00#8, 0x00#8, 0x02#8] with
        regs := ⟨0xFFFFFFFE#32, 0#32, 0#32, 0#32⟩ })
      (fun t => t.reg .a = 0x7FFFFFFF#32) = true := by decide
/-- V39. -/
theorem test_div_zero :
    faults (step { code 0x100 [0x44#8] with regs := ⟨10#32, 0#32, 0#32, 0#32⟩ })
      ⟨.divideByZero, 0#32, 0x100#32, some 0x44#8⟩ = true := by decide
/-- V44. -/
theorem test_ldMem_displaced : nextSat (step (withData (code 0x100 [0x50#8, 0x00#8, 0xFE#8, 0x02#8, 0x04#8, 0x10#8])))
    (fun t => t.reg .a = 0x9988#32) = true := by decide
/-- V52: the width is checked before the address. -/
theorem test_ldMem_badWidth_first :
    faults (step (code 0x100 [0x50#8, 0x00#8, 0x00#8, 0x08#8, 0xFF#8, 0xFF#8, 0xFF#8, 0xFF#8]))
      ⟨.badWidth, 8#32, 0x100#32, some 0x50#8⟩ = true := by decide
/-- V53: source and destination are the same register. -/
theorem test_ldr_same_register :
    nextSat (step { withData (code 0x100 [0x51#8, 0x00#8, 0x00#8, 0x04#8]) with
        regs := ⟨0x1000#32, 0#32, 0#32, 0#32⟩ })
      (fun t => t.reg .a = 0xBBAA9988#32) = true := by decide
/-- V55. -/
theorem test_ldr_outside :
    faults (step { code 0x100 [0x51#8, 0x09#8, 0x00#8, 0x02#8] with regs := ⟨0#32, 7#32, 0x00FFFFFF#32, 0#32⟩ })
      ⟨.addressOutOfRange, 0x00FFFFFF#32, 0x100#32, some 0x51#8⟩ = true := by decide
/-- V59: unaligned, and no byte beside the four. -/
theorem test_st_unaligned :
    nextSat (step { code 0x100 [0x58#8, 0x00#8, 0x00#8, 0x04#8, 0x01#8, 0x30#8] with
        regs := ⟨0x11223344#32, 0#32, 0#32, 0#32⟩ })
      (fun t => [0x3000, 0x3001, 0x3002, 0x3003, 0x3004, 0x3005].map t.mem.read
        = [0x00#8, 0x44#8, 0x33#8, 0x22#8, 0x11#8, 0x00#8]) = true := by decide
/-- V61: no partial write. -/
theorem test_st_outside :
    nextSat (step { code 0x100 [0x58#8, 0x00#8, 0x00#8, 0x04#8, 0xFE#8, 0xFF#8, 0xFF#8, 0x00#8] with
        regs := ⟨0xAABBCCDD#32, 0#32, 0#32, 0#32⟩ })
      (fun t => t.status = .faulted ⟨.addressOutOfRange, 0x00FFFFFE#32, 0x100#32, some 0x58#8⟩
        && t.mem.read 0xFFFFFE = 0#8) = true := by decide
/-- V70. -/
theorem test_cpr_bit_31 :
    nextSat (step { code 0x100 [0xC0#8, 0x00#8, 0x00#8, 0x00#8, 0xFF#8, 0xFF#8, 0xFF#8, 0xFF#8] with
        regs := ⟨0x7FFFFFFF#32, 0#32, 0#32, 0#32⟩ })
      (fun t => t.flags = 2#8 && t.reg .a = 0x7FFFFFFF#32) = true := by decide
/-- V71: sticky. -/
theorem test_cpr_sticky :
    nextSat (step { code 0x100 [0xC0#8] with regs := ⟨1#32, 0#32, 0#32, 0#32⟩, flags := 1#8 })
      (fun t => t.flags = 1#8) = true := by decide
/-- V74. -/
theorem test_stp : nextSat (step (code 0x100 [0xF0#8, 0xAB#8, 0xCD#8, 0xEF#8, 0x78#8, 0x56#8, 0x34#8, 0x12#8]))
    (fun t => t.status = .halted && t.pc = 0x108#32) = true := by decide
/-- V75. -/
theorem test_brk_emits :
    nextSat (step (State.withBytes (code 0x100 [0xF1#8, 0x00#8, 0x00#8, 0x00#8, 0x01#8]) 0xF00000 [0x48#8]))
      (fun t => t.out = [0x48#8] && t.pc = 0x108#32 && t.mem.read 0xF00000 = 0x48#8) = true := by decide
/-- V80: a core whose memory does not reach the port. -/
theorem test_brk_port_outside :
    faults (step { code 0x100 [0xF1#8, 0x00#8, 0x00#8, 0x00#8, 0x01#8] with
        cfg := { referenceConfig with memSize := 0x10000 } })
      ⟨.addressOutOfRange, 0x00F00000#32, 0x100#32, some 0xF1#8⟩ = true := by decide

/-! Fetch (V89 to V93), reset and the host's entry. -/

/-- V89. -/
theorem test_fetch_outside : faults (step (code 0x01000000 []))
    ⟨.addressOutOfRange, 0x01000000#32, 0x01000000#32, none⟩ = true := by decide
/-- V90. -/
theorem test_fetch_operands_cut : faults (step (code 0xFFFFFC [0x40#8]))
    ⟨.addressOutOfRange, 0x00FFFFFD#32, 0x00FFFFFC#32, some 0x40#8⟩ = true := by decide
/-- V91. -/
theorem test_fetch_opcode_first : faults (step (code 0xFFFFFC [0x99#8]))
    ⟨.unknownOpcode, 0x99#32, 0x00FFFFFC#32, some 0x99#8⟩ = true := by decide
/-- V92. -/
theorem test_fetch_last_eight : nextSat (step (code 0xFFFFF8 [0xF0#8]))
    (fun t => t.status = .halted && t.pc = 0x01000000#32) = true := by decide
/-- P8: the empty image. -/
theorem test_reset_empty_image : faults (step State.reset) ⟨.unknownOpcode, 0#32, 0#32, some 0#8⟩ = true := by decide
/-- R31: no step leaves Halted. -/
theorem test_halted_is_terminal : nextSat (step { State.reset with status := .halted }) (fun _ => true) = false := by
  decide
/-- A table word placed for the next fetch runs next (the word of ADD A,1). -/
theorem test_withFetchWord : nextSat (step (State.reset.withFetchWord 64 0x0000000100000041))
    (fun t => t.reg .a = 1#32 && t.pc = 8#32) = true := by decide
/-- Writing 0 back takes the entry out of memory's list. -/
theorem test_memory_canonical : ((Memory.mk []).write 5 7#8).write 5 0#8 = Memory.mk [] := by decide

/-! For each statement with hypotheses, a state and operands that meet them all, at the edge of a range where there is
one.  A conjunction lists the hypotheses of one statement; where its clauses have hypotheses of their own, there is one
part for each clause. -/

/-- The reference configuration with another memory size. -/
def sized (n : Nat) : Config := { referenceConfig with memSize := n }

/-- PreloadBuildsTheResetState, OversizedImageIsRefusedAndEmptyOneFaults: an image that just fits, one byte too many, and the
empty image in one byte of memory. -/
theorem test_hyps_preload :
    [0x40#8, 0x01#8].length ≤ (sized 2).memSize ∧ (sized 2).memSize < [0x40#8, 0x01#8, 0x02#8].length ∧
      1 ≤ (sized 1).memSize ∧ preload (sized 1) [] = some { State.reset with cfg := sized 1 } := by decide

/-- DecodeReadsExactlyTheUsedBits: eight bytes with every ignored bit set, which meet both sides (V21). -/
theorem test_hyps_usedBits :
    [0x40#8, 0xFF#8, 0x77#8, 0x99#8, 0x00#8, 0x00#8, 0x00#8, 0x00#8].length = 8 ∧
      List.zipWith (· &&& ·) [0x40#8, 0xFF#8, 0x77#8, 0x99#8, 0x00#8, 0x00#8, 0x00#8, 0x00#8]
        (Instr.ldImm .d 0#32).opcode.usedBits = encode (.ldImm .d 0#32) := by decide

/-- DecodeTakesEightBytesOrFailsByName: each outcome. -/
theorem test_hyps_decode_outcomes :
    decode [] = .error .noOpcode ∧ decode [0x22#8, 0x00#8] = .error (.unknownOpcode 0x22#8) ∧
      decode [0xF0#8, 0#8, 0#8, 0#8, 0#8, 0#8, 0#8] = .error (.operandBlockCut 0xF0#8) ∧
      decode [0xF0#8, 0#8, 0#8, 0#8, 0#8, 0#8, 0#8, 0#8, 0x99#8] = .ok (.stp, [0x99#8]) := by decide

/-- IllegalOpcodesFault: the illegal byte in the last byte of memory. -/
theorem test_hyps_illegal_opcode :
    (code 0xFFFFFF [0x99#8]).status = .running ∧ (code 0xFFFFFF [0x99#8]).pc.toNat < referenceConfig.memSize ∧
      (code 0xFFFFFF [0x99#8]).mem.read 0xFFFFFF = 0x99#8 ∧ 0x99#8 ∉ opcodeBytes := by decide

/-- StepRunsTheDecodedInstruction: an instruction in the last eight bytes of memory. -/
theorem test_hyps_step_runs :
    (code 0xFFFFF8 [0xF0#8]).status = .running ∧ (code 0xFFFFF8 [0xF0#8]).pc.toNat + 8 ≤ referenceConfig.memSize ∧
      decode ((List.range 8).map (fun k => (code 0xFFFFF8 [0xF0#8]).mem.read (0xFFFFF8 + k))) = .ok (.stp, []) := by
  decide

/-- MemoryPrimitivesCheckTheWholeAccess: the first access that runs past memory, and the last that does not. -/
theorem test_hyps_primitives :
    State.reset.cfg.memSize < (0x00FFFFFD#32).toNat + 4 ∧ (0x00FFFFFC#32).toNat + 4 ≤ State.reset.cfg.memSize ∧
      State.reset.mem.wf := by decide

/-- MixedWidthReadsSeeTheBytes: a 4-byte write that succeeds, its last byte, and a 2-byte read inside it. -/
theorem test_hyps_mixed_width :
    State.reset.mem.wf ∧ (memWrite State.reset 0x00FFFFFC#32 4 0x11223344#32).isOk = true ∧
      (0x00FFFFFF#32).toNat = (0x00FFFFFC#32).toNat + 3 ∧ (0x00FFFFFD#32).toNat = (0x00FFFFFC#32).toNat + 1 ∧
      (memRead State.reset 0x00FFFFFE#32 2).isOk = true := by decide

/-- BrJumpsToTheEffectiveAddress: a target at `MEM_SIZE`, and a BR to itself (V10, R110). -/
theorem test_hyps_br :
    nextSat (exec (.br 0x01000000#32 0#8 0#8) State.reset) (fun t =>
      State.reset.status = .running && State.reset.cfg.memSize ≤ t.pc.toNat) = true ∧
    fetch (code 0x100 [0x20#8, 0x00#8, 0x00#8, 0x00#8, 0x00#8, 0x01#8]) = .ok (.br 0x100#32 0#8 0#8) ∧
      effectiveAddress 0x100#32 0#8 0#8 = 0x100#32 := by decide

/-- The invariant, in a state with a program, a set flag and a register: the states below have it. -/
theorem code_inv (a : Nat) (bytes : List Byte) (x : RegFile) (f : Byte) (hf : f &&& ~~~(1#8 ||| 2#8) = 0#8)
    (ha : a + bytes.length ≤ 16777216) : { code a bytes with regs := x, flags := f }.Inv where
  cfg := (by decide : referenceConfig.legal = true)
  memWf := Memory.wf_load Memory.wf_empty a bytes
  memWithin := Memory.within_load (Memory.within_empty _) ha
  flags := hf

/-- BrcBranchesOnTheMaskedFlags: taken, not taken, a target outside memory, and the two clauses under the invariant. -/
theorem test_hyps_brc :
    { code 0 [] with flags := 3#8 }.Inv ∧ 3#8 &&& 0x02#8 ≠ 0#8 ∧ 3#8 &&& 0x00#8 = 0#8 ∧
      0xFC#8 &&& (referenceConfig.flagZMask ||| referenceConfig.flagNMask) = 0#8 ∧
      3#8 &&& referenceConfig.flagZMask ≠ 0#8 ∧
      nextSat (exec (.brc 1#8 0x01000000#32 0#8 0#8) { code 0 [] with flags := 1#8 }) (fun t =>
        t.status = .running && t.cfg.memSize ≤ t.pc.toNat) = true :=
  ⟨code_inv 0 [] ⟨0#32, 0#32, 0#32, 0#32⟩ 3#8 (by decide) (by decide), by decide, by decide, by decide, by decide,
    by decide⟩

/-- The encoding clauses: a select byte with every bit set, and V6's byte 0x0C for LDR. -/
theorem test_hyps_encodings :
    Reg.d.ordinal = (0xFF#8).toNat % 4 ∧ Reg.a.ordinal = (0x0C#8).toNat % 4 ∧
      Reg.d.ordinal = (0x0C#8).toNat / 4 % 4 := by decide

/-- DivIsTheUnsignedQuotient: a divisor that is 1, and one that is 0, under each `DIV_FN`. -/
theorem test_hyps_div :
    1#32 ≠ 0#32 ∧ State.reset.cfg.divFn = .unsigned ∧
      { State.reset with cfg := { referenceConfig with divFn := .agnostic } }.cfg.divFn = .agnostic := by decide

/-- LdMemLoadsTheBytes, StStoresTheLowBytes: a bad width, the last access in memory, the first past it. -/
theorem test_hyps_ldMem_st :
    8#8 ∉ [1#8, 2#8, 4#8] ∧ 4#8 ∈ [1#8, 2#8, 4#8] ∧
      ((0x00FFFFFC#32).toNat : Int) = (((0x01000000#32).toNat : Int) + (0xFF#8).toInt * (4#8).toNat) % 2 ^ 32 ∧
      (0x00FFFFFC#32).toNat + (4#8).toNat ≤ State.reset.cfg.memSize ∧ State.reset.mem.wf ∧
      State.reset.cfg.memSize < (0x00FFFFFD#32).toNat + (4#8).toNat := by decide

/-- LdrLoadsThroughTheRegister: an address register at the last 2-byte access in memory, and at the first past it. -/
theorem test_hyps_ldr :
    0#8 ∉ [1#8, 2#8, 4#8] ∧ 2#8 ∈ [1#8, 2#8, 4#8] ∧
      (State.reg { State.reset with regs := ⟨0x00FFFFFE#32, 0#32, 0#32, 0#32⟩ } .a).toNat + (2#8).toNat
        ≤ State.reset.cfg.memSize ∧
      State.reset.cfg.memSize
        < (State.reg { State.reset with regs := ⟨0x00FFFFFF#32, 0#32, 0#32, 0#32⟩ } .a).toNat + (2#8).toNat := by
  decide

/-- CprOrsInTheFlags, CompareLaws: the difference 0, the difference 2^31 at the bound `v - x = 2^31` (W3), and the largest
difference that sets no N (V68). -/
theorem test_hyps_cpr :
    State.reset.cfg.legal = true ∧ State.reset.reg .a = 0#32 ∧
      ((2 ^ 31 : Nat) : Int) = (((State.reset.reg .a).toNat : Int) - (0x80000000#32).toNat) % 2 ^ 32 ∧
      2 ^ 31 ≤ (State.reset.reg .a - 0x80000000#32).toNat ∧
      (State.reset.reg .a).toNat < (0x80000000#32).toNat ∧ (0x80000000#32 - 1#32).toNat < 2 ^ 31 := by decide

/-- BrkEmitsThePortByte: memory that just reaches the port, memory that just does not, and the code beside 1. -/
theorem test_hyps_brk :
    0x00F00000 < (sized 0x00F00001).memSize ∧ (sized 0x00F00000).memSize ≤ 0x00F00000 ∧ 0#32 ≠ 1#32 := by decide

/-- StoreThenLoadReturnsTheValue: a store to the last four bytes of memory, the load's own base and displacement for the same
address, and LDR's register holding it. -/
theorem test_hyps_round_trip :
    State.reset.mem.wf ∧ (effectiveAddress 0x00FFFFFC#32 0#8 4#8).toNat + (4#8).toNat ≤ State.reset.cfg.memSize ∧
      effectiveAddress 0x01000000#32 0xFF#8 4#8 = effectiveAddress 0x00FFFFFC#32 0#8 4#8 ∧
      nextSat (exec (.st .a 0x00FFFFFC#32 0#8 4#8) { State.reset with regs := ⟨7#32, 0x00FFFFFC#32, 0#32, 0#32⟩ })
        (fun t => t.cfg = State.reset.cfg && t.reg .b = effectiveAddress 0x00FFFFFC#32 0#8 4#8) = true := by decide

/-- StoreToThePortThenTrapEmits: a store from the port up in memory that just holds it, and one that reaches the port with its
last byte only, by a displacement. -/
theorem test_hyps_port :
    State.reset.mem.wf ∧ 4#8 ∈ [1#8, 2#8, 4#8] ∧
      (effectiveAddress 0x00F00000#32 0#8 4#8).toNat + 0 = 0x00F00000 ∧ 0 < (4#8).toNat ∧
      (effectiveAddress 0x00F00000#32 0#8 4#8).toNat + (4#8).toNat ≤ (sized 0x00F00004).memSize ∧
      (effectiveAddress 0x00F00001#32 0xFF#8 4#8).toNat + 3 = 0x00F00000 ∧ 3 < (4#8).toNat ∧
      (effectiveAddress 0x00F00001#32 0xFF#8 4#8).toNat + (4#8).toNat ≤ (sized 0x00F00001).memSize := by decide

/-- FlagsAreStickyAndCprOnly, StepKeepsTheInvariant: a step from a state with the invariant that sets a flag. -/
theorem test_hyps_flag_step :
    { code 0x100 [0xC0#8] with regs := ⟨0#32, 0#32, 0#32, 0#32⟩, flags := 2#8 }.Inv ∧
      nextSat (step { code 0x100 [0xC0#8] with regs := ⟨0#32, 0#32, 0#32, 0#32⟩, flags := 2#8 })
        (fun t => t.flags = 3#8) = true :=
  ⟨code_inv 0x100 [0xC0#8] _ 2#8 (by decide) (by decide), by decide⟩

/-- FlagsAreStickyAndCprOnly, SpIsNeverUsed: a preloaded core that runs a step (the image `LD A,1` of §8). -/
theorem test_hyps_reaches :
    ∃ t, Certificates.Reaches referenceConfig [0x40#8, 0x00#8, 0x00#8, 0x00#8, 0x01#8] 1 t :=
  ⟨_, _, rfl, rfl⟩

/-- The statements about a step: one that completes, one that halts, one that emits, one that stores, one that faults, a BR
and a taken BRC. -/
theorem test_hyps_steps :
    nextSat (step (code 0x100 [0x41#8])) (fun t => t.status = .running) = true ∧
      nextSat (step (code 0x100 [0xF0#8])) (fun t => t.status = .halted) = true ∧
      nextSat (step (code 0x100 [0xF1#8, 0#8, 0#8, 0#8, 1#8])) (fun t => t.out ≠ []) = true ∧
      nextSat (step { code 0x100 [0x58#8, 0#8, 0#8, 1#8] with regs := ⟨5#32, 0#32, 0#32, 0#32⟩ })
        (fun t => t.mem.read 0 ≠ 0#8) = true ∧
      faults (step (code 0x100 [0x44#8])) ⟨.divideByZero, 0#32, 0x100#32, some 0x44#8⟩ = true ∧
      fetch (code 0x100 [0x20#8]) = .ok (.br 0#32 0#8 0#8) ∧
      fetch (code 0x100 [0x21#8, 1#8]) = .ok (.brc 1#8 0#32 0#8 0#8) := by decide

/-- PcAdvancesByEightUnlessBranching, StatusChangesOnlyByStpAndFaults: a step of BRC with mask 1 that does not fault, taken
to 0x200 with Z set, and at `ia + 8` with N alone set (R111). -/
theorem test_hyps_pc :
    fetch { code 0x100 [0x21#8, 1#8, 0#8, 0#8, 0#8, 2#8] with flags := 1#8 } = .ok (.brc 1#8 0x200#32 0#8 0#8) ∧
      1#8 &&& 1#8 ≠ 0#8 ∧ 2#8 &&& 1#8 = 0#8 ∧
      nextSat (step { code 0x100 [0x21#8, 1#8, 0#8, 0#8, 0#8, 2#8] with flags := 1#8 })
        (fun t => t.status = .running && t.pc = 0x200#32) = true ∧
      nextSat (step { code 0x100 [0x21#8, 1#8, 0#8, 0#8, 0#8, 2#8] with flags := 2#8 })
        (fun t => t.status = .running && t.pc = 0x108#32) = true := by decide

/-- ResetMeetsTheInvariant: legal parameters other than the reference ones, and an image that preloads. -/
theorem test_hyps_legal :
    Config.legal ⟨2 ^ 32, 0x80#8, 0x01#8, .agnostic⟩ = true ∧ Config.legal ⟨1, 0x40#8, 0x80#8, .unsigned⟩ = true ∧
      (preload ⟨1, 0x40#8, 0x80#8, .unsigned⟩ [0xF0#8]).isSome = true := by decide

/-- PopAfterPushReturnsTheValue: the reset `sp`, and an `sp` at the very top of memory. -/
theorem test_hyps_push :
    State.reset.mem.wf ∧ (State.reset.sp - 4#32).toNat + 4 ≤ State.reset.cfg.memSize ∧
      (0x01000000#32 - 4#32).toNat + 4 ≤ State.reset.cfg.memSize := by decide

/-- RegistersAreUsedAsTheTableSays: an LDR that completes, writes A and reads B, the registers of each clause,
and two select bytes that differ in the third and fourth field only. -/
theorem test_hyps_registers :
    nextSat (exec (.ldr .a .b 1#8) State.reset) (fun t => t.status = .running) = true ∧
      regWritten (.ldr .a .b 1#8) ≠ some .b ∧ regRead (.ldr .a .b 1#8) ≠ some .a ∧
      regWritten (.ldr .a .b 1#8) = some .a ∧ regRead (.ldr .a .b 1#8) = some .b ∧
      (0x51#8 : Byte) ≠ 0x21#8 ∧ (0x09#8).toNat % 16 = (0xF9#8).toNat % 16 ∧ (0x09#8 : Byte) ≠ 0xF9#8 := by decide

/-- StoredOpcodeRunsNext: a store of 0xF0 into the opcode byte of the next instruction (as in P9), in the last sixteen bytes
of memory. -/
theorem test_hyps_stored_opcode :
    let s := { code 0xFFFFF0 [0x58#8, 0#8, 0#8, 1#8, 0xF8#8, 0xFF#8, 0xFF#8] with
      regs := ⟨0xF0#32, 0#32, 0#32, 0#32⟩ }
    s.status = .running ∧ s.mem.wf ∧ fetch s = .ok (.st .a 0x00FFFFF8#32 0#8 1#8) ∧
      s.pc.toNat + 16 ≤ s.cfg.memSize ∧ s.cfg.memSize ≤ 2 ^ 32 ∧
      effectiveAddress 0x00FFFFF8#32 0#8 1#8 = s.pc + 8#32 ∧
      decode ((s.reg .a).setWidth 8 :: (List.range 7).map (fun k => s.mem.read (s.pc.toNat + 9 + k)))
        = .ok (.stp, []) := by decide

/-- FetchDependsOnItsBytesAlone: two different states with the same instruction at `pc`. -/
theorem test_hyps_fetch :
    let s := code 0x100 [0xF0#8]
    let u := State.withBytes { s with flags := 3#8 } 0x108 [0xFF#8]
    u ≠ s ∧ u.pc = s.pc ∧ u.cfg.memSize = s.cfg.memSize ∧
      ∀ k, k < 8 → u.mem.read (s.pc.toNat + k) = s.mem.read (s.pc.toNat + k) := by decide

end Sys2Proof.Tests
end

section
/-! SUPPORT. Proofs about the state: the status a step leaves (spec/10_state.md R31) and the registers an instruction
uses (R22). -/

namespace Sys2Proof.Machine

open Sys2Proof.Certificates

/-! The status a step leaves. -/

/-- An opcode's byte is one of the thirteen (spec/30_encoding.md R95). -/
theorem toByte_mem_opcodeBytes (o : Opcode) : o.toByte ∈ opcodeBytes := by
  cases o <;> decide

/-- A byte the opcode table does not list is none of the thirteen (R94). -/
theorem not_mem_opcodeBytes {b : Byte} (h : Opcode.ofByte b = none) : b ∉ opcodeBytes := by
  revert b; decide

/-- What stands at `pc` when the fetch succeeds: eight bytes in memory, that hold the instruction's opcode
and operands. -/
theorem fetch_ok {s : State} {i : Instr} (h : fetch s = .ok i) :
    s.pc.toNat + 8 ≤ s.cfg.memSize ∧ s.opAt = i.opcode.toByte ∧
      i = assemble i.opcode (fetchOperands s.mem s.pc.toNat) := by
  rcases fetch_cases s with ⟨-, hf⟩ | ⟨-, -, hf⟩ | ⟨-, -, -, hf⟩ | ⟨h8, o, ho, hf⟩ <;>
    rw [hf] at h <;> cases h
  rw [opcode_assemble]
  exact ⟨h8, Opcode.ofByte_eq_some.mp ho, rfl⟩

/-- A fetch that fails meets a fault that is due (spec/60_exceptions.md R196, 1 to 3). -/
theorem faultDue_of_fetch_error {s : State} {r : FaultRecord} (h : fetch s = .error r) : FaultDue s r := by
  rcases fetch_cases s with ⟨hpc, hf⟩ | ⟨hpc, ho, hf⟩ | ⟨hpc, h8, ⟨o, ho⟩, hf⟩ | ⟨-, o, -, hf⟩ <;>
    rw [hf] at h <;> cases h
  · exact .opcodeOutside hpc
  · exact .unknownOpcode hpc (not_mem_opcodeBytes ho)
  · exact .operandsOutside hpc (Opcode.ofByte_eq_some.mp ho ▸ toByte_mem_opcodeBytes o) h8

/-- What the fetched instruction raises is a fault that is due (R196, 4). -/
theorem faultDue_of_raises {s : State} {i : Instr} {e : Raise} (hf : fetch s = .ok i) (h : Raises s i e) :
    FaultDue s ⟨e.cause, e.value, s.pc, some i.opcode.toByte⟩ := by
  obtain ⟨h8, hop, hi⟩ := fetch_ok hf
  rw [← hop]
  cases h with
  | divideByZero r =>
    obtain ⟨-, himm⟩ := Instr.div.inj hi
    exact .divideByZero h8 hop himm.symm
  | ldMemWidth r addr disp scale hw =>
    obtain ⟨-, -, -, rfl⟩ := Instr.ldMem.inj hi
    exact .badWidth h8 (by simp [hop, Instr.opcode, Opcode.toByte]) hw
  | ldMemAddress r addr disp scale hw hout =>
    obtain ⟨-, rfl, rfl, rfl⟩ := Instr.ldMem.inj hi
    exact .dataOutside h8 (by simp [hop, Instr.opcode, Opcode.toByte]) hw hout
  | ldrWidth r1 r2 scale hw =>
    obtain ⟨-, -, rfl⟩ := Instr.ldr.inj hi
    exact .badWidth h8 (by simp [hop, Instr.opcode, Opcode.toByte]) hw
  | ldrAddress r1 r2 scale hw hout =>
    obtain ⟨-, rfl, rfl⟩ := Instr.ldr.inj hi
    exact .indirectOutside _ h8 hop hw (regAt_two _) hout
  | stWidth r addr disp scale hw =>
    obtain ⟨-, -, -, rfl⟩ := Instr.st.inj hi
    exact .badWidth h8 (by simp [hop, Instr.opcode, Opcode.toByte]) hw
  | stAddress r addr disp scale hw hout =>
    obtain ⟨-, rfl, rfl, rfl⟩ := Instr.st.inj hi
    exact .dataOutside h8 (by simp [hop, Instr.opcode, Opcode.toByte]) hw hout
  | unknownTrap code hc =>
    obtain rfl := Instr.brk.inj hi
    exact .unknownTrap h8 hop hc
  | port hout => exact .portOutside h8 hop (Instr.brk.inj hi).symm hout

/-- Of the instructions that complete on a Running core, STP alone halts it, and none faults it. -/
theorem Completed.status_of_running {s t : State} {i : Instr} (h : Completed s i t) (hs : s.status = .running) :
    (t.status = .halted ↔ i = .stp) ∧ ∀ rec, t.status ≠ .faulted rec := by
  rcases h.status with ht | ⟨rfl, ht⟩
  · refine ⟨⟨fun hh => ?_, fun hi => ?_⟩, fun rec => by simp [ht, hs]⟩
    · simp [ht, hs] at hh
    · subst hi
      cases h
      rfl
  · simp [ht]

/-- Settles O31: a step from Running meets a fetch fault, completes the fetched instruction, or takes the fault it
raises. -/
theorem statusChangesOnlyByStpAndFaults : Obligations.StatusChangesOnlyByStpAndFaults := by
  refine ⟨fun s t h => ?_, fun s hs => by simp [step, hs], fun s rec hs => by simp [step, hs]⟩
  obtain ⟨hs, ⟨r, hf, rfl⟩ | ⟨i, hf, hc⟩ | ⟨i, e, hf, hr, rfl⟩⟩ := step_cases h
  · refine ⟨hs, by simp [hf], fun rec hrec => ?_⟩
    cases hrec
    exact faultDue_of_fetch_error hf
  · obtain ⟨hhalt, hfault⟩ := hc.status_of_running hs
    exact ⟨hs, by rw [hhalt, hf, Except.ok.injEq], fun rec hrec => absurd hrec (hfault rec)⟩
  · refine ⟨hs, ⟨fun hh => by simp at hh, fun hstp => ?_⟩, fun rec hrec => ?_⟩
    · rw [hf, Except.ok.injEq] at hstp
      subst hstp
      cases hr
    · cases hrec
      exact faultDue_of_raises hf hr

/-! The register fields of the select byte. -/

/-- Only BRC looks at more of the select byte than its first two register fields (spec/10_state.md R22). -/
theorem assemble_congr_rs {o : Opcode} {rs rs' : Byte} (ho : o ≠ .brc) (h : rs.toNat % 16 = rs'.toNat % 16)
    (disp scale : Byte) (imm : Word) : assemble o ⟨rs, disp, scale, imm⟩ = assemble o ⟨rs', disp, scale, imm⟩ := by
  have h1 : regAt rs 1 = regAt rs' 1 := regAt_one_eq (by rw [regAt_one]; omega)
  have h2 : regAt rs 2 = regAt rs' 2 := regAt_two_eq (by rw [regAt_two]; omega)
  cases o with
  | brc => exact absurd rfl ho
  | _ => simp only [assemble, h1, h2]

/-- So decoding does not depend on the third and fourth field, but for BRC (R22). -/
theorem decode_congr_rs {op rs rs' : Byte} (rest : List Byte) (hop : op ≠ Opcode.brc.toByte)
    (h : rs.toNat % 16 = rs'.toNat % 16) : decode (op :: rs :: rest) = decode (op :: rs' :: rest) := by
  simp only [decode]
  cases ho : Opcode.ofByte op with
  | none => rfl
  | some o =>
    have hne : o ≠ .brc := fun e => hop (e ▸ Opcode.ofByte_eq_some.mp ho)
    match rest with
    | disp :: scale :: b0 :: b1 :: b2 :: b3 :: tail => simp only [assemble_congr_rs hne h]
    | [] | [_] | [_, _] | [_, _, _] | [_, _, _, _] | [_, _, _, _, _] => rfl

/-! The registers of the table are used. -/

/-- The instruction with the same opcode and registers, and operands that make its use of them show. -/
def showing : Instr → Instr
  | .ldImm r _ => .ldImm r 1#32
  | .add r _ => .add r 1#32
  | .sub r _ => .sub r 1#32
  | .mul r _ => .mul r 2#32
  | .div r _ => .div r 2#32
  | .ldMem r _ _ _ => .ldMem r 0#32 0#8 1#8
  | .ldr r1 r2 _ => .ldr r1 r2 1#8
  | .st r _ _ _ => .st r 0#32 0#8 1#8
  | .cpr r _ => .cpr r 0#32
  | i => i

theorem showing_keeps (i : Instr) :
    (showing i).opcode = i.opcode ∧ regWritten (showing i) = regWritten i ∧ regRead (showing i) = regRead i := by
  cases i <;> exact ⟨rfl, rfl, rfl⟩

/-- A core whose registers all hold 2, and whose memory holds 7 at address 0 and 0 elsewhere. -/
def probe : State := { State.reset with regs := ⟨2#32, 2#32, 2#32, 2#32⟩, mem := ⟨[(0, 7#8)]⟩ }

@[simp] theorem reg_probe (r : Reg) : probe.reg r = 2#32 := by
  cases r <;> rfl

@[simp] theorem quotient_probe (a b : Word) : quotient probe.cfg.divFn a b = a / b := rfl

@[simp] theorem memSize_probe : probe.cfg.memSize = 16777216 := rfl

@[simp] theorem readLE_probe_zero : probe.mem.readLE 0 1 = 7#32 := by decide

@[simp] theorem readLE_probe_two : probe.mem.readLE 2 1 = 0#32 := by decide

/-- The address `showing` loads from and stores to. -/
@[simp] theorem effectiveAddress_zero : effectiveAddress 0#32 0#8 1#8 = 0#32 := by decide

/-- The byte `showing` stores at that address. -/
@[simp] theorem read_writeLE_probe (v : Word) : (probe.mem.writeLE 0 1 v).read 0 = v.setWidth 8 := by
  simpa using Memory.read_writeLE_inside (m := probe.mem) (by decide) 0 1 v (k := 0) (by decide)

/-- `showing`'s compare with 0 sets Z where the register holds 0, and no flag where it holds 2. -/
theorem compareFlags_probe_ne : compareFlags probe.cfg 0#32 probe.flags ≠ compareFlags probe.cfg 2#32 probe.flags := by
  decide

/-- The register an instruction writes changes, for some operands in some state (R22). -/
theorem showing_written_changes {i : Instr} {q : Reg} (h : regWritten i = some q) :
    ∃ t, exec (showing i) probe = .next t ∧ t.reg q ≠ probe.reg q := by
  cases i <;> cases h
  case ldImm | add | sub | mul => exact ⟨_, rfl, by simp⟩
  case div => exact ⟨_, exec_div_completes q probe (by decide), by simp⟩
  case ldMem => exact ⟨_, exec_ldMem_completes q (by decide) (by decide), by simp⟩
  case ldr => exact ⟨_, exec_ldr_completes q (by decide) (by simp), by simp⟩

/-- What an instruction writes depends on the register it reads, for some operands and two states that differ in that
register (R22). -/
theorem showing_read_matters {i : Instr} {q : Reg} (h : regRead i = some q) :
    ∃ t t', exec (showing i) probe = .next t ∧ exec (showing i) (probe.setReg q 0#32) = .next t' ∧
      ((∃ p, regWritten i = some p ∧ t'.reg p ≠ t.reg p) ∨ t'.flags ≠ t.flags ∨
        ∃ a, t'.mem.read a ≠ t.mem.read a) := by
  cases i <;> cases h
  case add | sub | mul => exact ⟨_, _, rfl, rfl, .inl ⟨q, rfl, by simp⟩⟩
  case div =>
    exact ⟨_, _, exec_div_completes q _ (by decide), exec_div_completes q _ (by decide),
      .inl ⟨q, rfl, by simp⟩⟩
  case ldr r1 _ =>
    exact ⟨_, _, exec_ldr_completes r1 (by decide) (by simp), exec_ldr_completes r1 (by decide) (by simp),
      .inl ⟨r1, rfl, by simp⟩⟩
  case st =>
    exact ⟨_, _, exec_st_completes q (by decide) (by simp), exec_st_completes q (by decide) (by simp),
      .inr (.inr ⟨0, by simp⟩)⟩
  case cpr => exact ⟨_, _, rfl, rfl, .inr (.inl (by simp [compareFlags_probe_ne]))⟩

/-! No other register is used. -/

/-- What executing an instruction can answer: it completes, or takes the fault it raises. -/
theorem exec_next {i : Instr} {s t : State} (h : exec i s = .next t) :
    Completed s i t ∨ ∃ e, Raises s i e ∧ t = takeFault ⟨e.cause, e.value, s.pc, some i.opcode.toByte⟩ s := by
  rcases exec_cases i s with ⟨t', he, hc⟩ | ⟨e, he, hr⟩ <;> rw [he] at h
  · cases h
    exact .inl hc
  · cases h
    exact .inr ⟨e, hr, rfl⟩

/-- `State.reg_setReg_of_ne`, for registers compared as `regRead` and `regWritten` answer them. -/
theorem State.reg_setReg_of_some_ne (s : State) {r q : Reg} (v : Word) (h : some r ≠ some q) :
    (s.setReg q v).reg r = s.reg r :=
  State.reg_setReg_of_ne s v fun e => h (congrArg some e)

/-- A completed instruction changes no register but the one it writes (R22). -/
theorem Completed.reg_of_not_written {s t : State} {i : Instr} (h : Completed s i t) {q : Reg}
    (hq : regWritten i ≠ some q) : t.reg q = s.reg q := by
  cases h with
  | br | brcTaken | brcNotTaken | st | cpr | stp | brk => rfl
  | ldImm r | add r | sub r | mul r | div r | ldMem r | ldr r => exact State.reg_setReg_of_some_ne s _ hq.symm

/-- Set register `q` to `v` before the instruction that took `s` to `t`: it still completes, and leaves what it left in
`t`, in `q` too where it writes `q`. -/
def CompletesAlike (q : Reg) (v : Word) (s : State) (i : Instr) (t : State) : Prop :=
  ∃ x, Completed (s.setReg q v) i { t with regs := x } ∧ ∀ p, p ≠ q ∨ regWritten i = some q → x.get p = t.reg p

/-- An instruction that writes `r` overwrites what was set there, and keeps what was set elsewhere. -/
theorem completesAlike_of_written {s : State} {i : Instr} {q r : Reg} {v w : Word} (hr : regWritten i = some r)
    (h : Completed (s.setReg q v) i ((s.setReg q v).setReg r w).advance) :
    CompletesAlike q v s i (s.setReg r w).advance := by
  refine ⟨_, h, fun p hp => ?_⟩
  by_cases hpr : p = r
  · subst hpr
    simp
  · have hpq : p ≠ q := hp.elim id fun hq => Option.some.inj (hr.symm.trans hq) ▸ hpr
    calc ((s.regs.set q v).set r w).get p = s.reg p := by
          rw [RegFile.get_set_of_ne _ w hpr, RegFile.get_set_of_ne _ v hpq, State.reg]
      _ = (s.setReg r w).advance.reg p := (State.reg_setReg_of_ne s w hpr).symm

/-- An instruction that writes no register keeps what was set. -/
theorem completesAlike_of_not_written {s t : State} {i : Instr} {q : Reg} {v : Word} (hi : regWritten i = none)
    (h : Completed (s.setReg q v) i (t.setReg q v)) : CompletesAlike q v s i t :=
  ⟨_, h, fun _ hp => State.reg_setReg_of_ne t v (hp.elim id fun hq => by simp [hi] at hq)⟩

/-- A register the instruction does not read changes nothing of a completed outcome but itself (R22). -/
theorem Completed.completesAlike_of_not_read {s t : State} {i : Instr} (h : Completed s i t) {q : Reg} (v : Word)
    (hq : regRead i ≠ some q) : CompletesAlike q v s i t := by
  have unread (r : Reg) (hr : some r ≠ some q) := State.reg_setReg_of_some_ne s v hr
  cases h with
  | br => exact completesAlike_of_not_written rfl (.br ..)
  | brcTaken mask addr disp scale h => exact completesAlike_of_not_written rfl (.brcTaken mask addr disp scale h)
  | brcNotTaken mask addr disp scale h => exact completesAlike_of_not_written rfl (.brcNotTaken mask addr disp scale h)
  | ldImm => exact completesAlike_of_written rfl (.ldImm ..)
  | add r imm => exact completesAlike_of_written rfl (unread r hq ▸ .add r imm)
  | sub r imm => exact completesAlike_of_written rfl (unread r hq ▸ .sub r imm)
  | mul r imm => exact completesAlike_of_written rfl (unread r hq ▸ .mul r imm)
  | div r imm h => exact completesAlike_of_written rfl (unread r hq ▸ .div r imm h)
  | ldMem r addr disp scale hw h => exact completesAlike_of_written rfl (.ldMem r addr disp scale hw h)
  | ldr r1 r2 scale hw h =>
    rw [← unread r2 hq] at h ⊢
    exact completesAlike_of_written rfl (.ldr r1 r2 scale hw h)
  | st r addr disp scale hw h => exact completesAlike_of_not_written rfl (unread r hq ▸ .st r addr disp scale hw h)
  | cpr r imm => exact completesAlike_of_not_written rfl (unread r hq ▸ .cpr r imm)
  | stp => exact completesAlike_of_not_written rfl .stp
  | brk h => exact completesAlike_of_not_written rfl (.brk h)

/-- Nor does it change which fault the instruction raises. -/
theorem Raises.setReg_of_not_read {s : State} {i : Instr} {e : Raise} (h : Raises s i e) {q : Reg} (v : Word)
    (hq : regRead i ≠ some q) : Raises (s.setReg q v) i e := by
  cases h with
  | divideByZero => exact .divideByZero _
  | ldMemWidth _ _ _ _ hw => exact .ldMemWidth _ _ _ _ hw
  | ldMemAddress _ _ _ _ hw h => exact .ldMemAddress _ _ _ _ hw h
  | ldrWidth _ _ _ hw => exact .ldrWidth _ _ _ hw
  | ldrAddress r1 r2 scale hw h =>
    have hr := State.reg_setReg_of_some_ne s v hq
    exact hr ▸ .ldrAddress (s := s.setReg q v) r1 r2 scale hw (hr ▸ h)
  | stWidth _ _ _ _ hw => exact .stWidth _ _ _ _ hw
  | stAddress _ _ _ _ hw h => exact .stAddress _ _ _ _ hw h
  | unknownTrap _ h => exact .unknownTrap _ h
  | port h => exact .port h

/-- An instruction changes no register but the one it writes, completed or not. -/
theorem exec_reg_of_not_written {i : Instr} {s t : State} (h : exec i s = .next t) {q : Reg}
    (hq : regWritten i ≠ some q) : t.reg q = s.reg q := by
  rcases exec_next h with hc | ⟨e, -, rfl⟩
  · exact hc.reg_of_not_written hq
  · rfl

/-- A register the instruction does not read changes nothing of the outcome but itself. -/
theorem exec_setReg_of_not_read {i : Instr} {s t : State} (h : exec i s = .next t) {q : Reg} (v : Word)
    (hq : regRead i ≠ some q) :
    ∃ x, exec i (s.setReg q v) = .next { t with regs := x } ∧
      ∀ p, p ≠ q ∨ (regWritten i = some q ∧ ∀ rec, t.status ≠ .faulted rec) → x.get p = t.reg p := by
  rcases exec_next h with hc | ⟨e, hr, rfl⟩
  · obtain ⟨x, hx, hagree⟩ := hc.completesAlike_of_not_read v hq
    exact ⟨x, exec_of_completed hx, fun p hp => hagree p (hp.imp_right And.left)⟩
  · refine ⟨_, exec_of_raises (hr.setReg_of_not_read v hq), fun p hp => ?_⟩
    exact RegFile.get_set_of_ne _ v (hp.elim id fun hf => absurd rfl (hf.2 _))

theorem sameOutcome_self (t : State) : SameOutcome t t := ⟨rfl, fun _ => rfl⟩

/-- Settles O41: the select byte's unused fields, the registers that are used, and the ones that are not. -/
theorem registersAreUsedAsTheTableSays : Obligations.RegistersAreUsedAsTheTableSays := by
  refine ⟨fun op rs rs' rest hop h => decode_congr_rs rest hop h, fun i => ?_, fun i s t h => ?_⟩
  · obtain ⟨hop, hwritten, hread⟩ := showing_keeps i
    exact ⟨showing i, hop, hwritten, hread, fun q hq => ⟨probe, showing_written_changes hq⟩,
      fun q hq => ⟨probe, 0#32, showing_read_matters hq⟩⟩
  · refine ⟨fun q hq => exec_reg_of_not_written h hq, fun q v hq => ?_⟩
    obtain ⟨x, hx, hagree⟩ := exec_setReg_of_not_read h v hq
    exact ⟨_, hx, hagree, sameOutcome_self t⟩

end Sys2Proof.Machine
end

section
/-! SUPPORT. Proofs about the opcode map: the illegal opcode bytes (spec/30_encoding.md R94) and the table of the
legal ones (R95, R82). -/

namespace Sys2Proof.Machine

open Sys2Proof.Certificates

/-! Illegal opcode bytes. -/

/-- The illegal bytes are those the opcode table does not list (R94). -/
theorem ofByte_eq_none_iff {b : Byte} : Opcode.ofByte b = none ↔ b ∉ opcodeBytes := by
  refine ⟨not_mem_opcodeBytes, fun hb => ?_⟩
  cases ho : Opcode.ofByte b with
  | none => rfl
  | some o => exact absurd (Opcode.ofByte_eq_some.mp ho ▸ toByte_mem_opcodeBytes o) hb

/-- The numbers of the legal opcode bytes among the 256 are the thirteen of the table, each once (R95). -/
theorem filter_legal_perm :
    ((List.range 256).filter fun n => opcodeBytes.contains (BitVec.ofNat 8 n)).Perm (opcodeBytes.map BitVec.toNat) := by
  refine (List.perm_ext_iff_of_nodup (List.nodup_range.filter _) (by decide)).mpr fun n => ?_
  simp only [List.mem_filter, List.mem_range, List.contains_iff_mem, List.mem_map]
  constructor
  · rintro ⟨hn, hmem⟩
    exact ⟨_, hmem, BitVec.toNat_ofNat .. ▸ Nat.mod_eq_of_lt hn⟩
  · rintro ⟨b, hb, rfl⟩
    exact ⟨b.isLt, by simpa using hb⟩

/-- The 256 bytes less the thirteen legal ones leave 243 (R94). -/
theorem length_filter_illegal :
    ((List.range 256).filter fun n => !opcodeBytes.contains (BitVec.ofNat 8 n)).length = 243 := by
  have hlegal : ((List.range 256).filter fun n => opcodeBytes.contains (BitVec.ofNat 8 n)).length = 13 :=
    filter_legal_perm.length_eq
  have hsplit := List.length_eq_length_filter_add (l := List.range 256) fun n => opcodeBytes.contains (BitVec.ofNat 8 n)
  rw [List.length_range] at hsplit
  omega

/-- An illegal byte in memory at `pc` fails the fetch, whether or not eight bytes of memory remain (R90, R94). -/
theorem fetch_illegal {s : State} (hpc : s.pc.toNat < s.cfg.memSize) (hop : s.opAt ∉ opcodeBytes) :
    fetch s = .error ⟨.unknownOpcode, s.opAt.setWidth 32, s.pc, some s.opAt⟩ := by
  have hnone := ofByte_eq_none_iff.mpr hop
  rcases fetch_cases s with ⟨hout, -⟩ | ⟨-, -, hf⟩ | ⟨-, -, ⟨o, ho⟩, -⟩ | ⟨-, o, ho, -⟩
  · omega
  · exact hf
  · simp [hnone] at ho
  · simp [hnone] at ho

/-- A Running core whose fetch fails takes the fault the fetch reports. -/
theorem step_of_fetch_error {s : State} {r : FaultRecord} (hs : s.status = .running) (hf : fetch s = .error r) :
    step s = .next (takeFault r s) := by
  rw [step_of_running hs, hf]

/-- Settles O8: all but thirteen of the 256 bytes are illegal, and an illegal byte fails the fetch, which the step
reports. -/
theorem illegalOpcodesFault : Obligations.IllegalOpcodesFault := by
  refine ⟨length_filter_illegal, fun s op hs hpc hread hop => ?_⟩
  subst hread
  exact ⟨_, step_of_fetch_error hs (fetch_illegal hpc hop), takeFault_status s _⟩

/-! The opcode map. -/

/-- Every opcode is in the canonical set (R95). -/
theorem mem_opcode_all (o : Opcode) : o ∈ Opcode.all := by
  cases o <;> decide

/-- The canonical set, paired with its bytes, pairs each opcode with its own byte and no other. -/
theorem mem_opcode_map_iff {op : Byte} {o : Opcode} :
    (op, o) ∈ Opcode.all.map (fun p => (p.toByte, p)) ↔ op = o.toByte := by
  constructor
  · intro h
    obtain ⟨p, -, hp⟩ := List.mem_map.mp h
    obtain ⟨hbyte, rfl⟩ := Prod.mk.inj hp
    exact hbyte.symm
  · rintro rfl
    exact List.mem_map_of_mem (mem_opcode_all o)

/-- Whatever operand block follows, a byte decodes to an instruction of an opcode exactly when it is that opcode's
byte (R82: the whole byte takes part). -/
theorem decode_to_opcode_iff (op rs disp scale b0 b1 b2 b3 : Byte) (rest : List Byte) (o : Opcode) :
    (∃ i, decode (op :: rs :: disp :: scale :: b0 :: b1 :: b2 :: b3 :: rest) = .ok (i, rest) ∧ i.opcode = o) ↔
      op = o.toByte := by
  constructor
  · rintro ⟨i, hd, rfl⟩
    obtain ⟨o, _, _, _, _, _, _, _, hbytes, rfl⟩ := decode_ok hd
    rw [opcode_assemble]
    exact (List.cons.inj hbytes).1
  · rintro rfl
    exact ⟨_, decode_eight rs disp scale b0 b1 b2 b3 rest, opcode_assemble o _⟩

/-- Settles O46: the statement's table is the canonical set paired with its bytes, which are what the decoder looks
up. -/
theorem opcodeMapIsTheTable : Obligations.OpcodeMapIsTheTable := by
  intro op rs disp scale i0 i1 i2 i3 rest o
  rw [decode_to_opcode_iff]
  exact mem_opcode_map_iff.symm

end Sys2Proof.Machine
end

section
/-! SUPPORT. Proofs about the register-immediate arithmetic: LD reg,imm (spec/41_arithmetic.md R120), ADD (R121) and
SUB (R122). -/

namespace Sys2Proof.Machine

open Sys2Proof.Certificates

/-! The shape the instructions of sub-format RI share. -/

/-- An opcode whose operands assemble to the first register and the immediate alone has the RI encoding
(spec/30_encoding.md R81, R88). -/
theorem encodedRI_of_assemble {o : Opcode} {mk : Reg → Word → Instr}
    (h : ∀ f, assemble o f = mk (regAt f.rs 1) f.imm) : EncodedRI o.toByte mk := by
  intro rs disp scale i0 i1 i2 i3 rest r hr
  rw [decode_eight, h, regAt_one_eq hr]
  rfl

/-- A handler that writes one register and advances completes, changes that register alone, and leaves the written
value in it. -/
theorem completesWith_setReg_advance (o : Opcode) (s : State) (r : Reg) (v : Word) {post : Word → Prop} (h : post v) :
    CompletesWith (finish o s (.ok (s.setReg r v).advance)) s [.reg r] (fun t => post (t.reg r)) := by
  refine ⟨_, finish_ok o s _, rfl, frame_setReg_advance s r v, ?_⟩
  simpa only [State.reg_advance, State.reg_setReg_self] using h

/-! The instructions. -/

/-- Settles O15: LD reg,imm writes its immediate. -/
theorem ldImmLoadsTheImmediate : Obligations.LdImmLoadsTheImmediate :=
  ⟨encodedRI_of_assemble (o := .ldImm) fun _ => rfl,
    fun r imm s => completesWith_setReg_advance .ldImm s r imm (post := (· = imm)) rfl⟩

/-- Settles O16: ADD writes the wrapped sum. -/
theorem addWraps : Obligations.AddWraps :=
  ⟨encodedRI_of_assemble (o := .add) fun _ => rfl,
    fun r imm s => completesWith_setReg_advance .add s r (s.reg r + imm)
      (post := fun v => v.toNat = ((s.reg r).toNat + imm.toNat) % 2 ^ 32) (BitVec.toNat_add _ _)⟩

/-- The wrapped difference in exact integers: the difference of the values modulo 2^32, never negative (R122). -/
theorem toNat_sub_eq_emod (a b : Word) : ((a - b).toNat : Int) = ((a.toNat : Int) - b.toNat) % 2 ^ 32 := by
  rw [BitVec.toNat_sub]
  omega

/-- Settles O17: SUB writes the wrapped difference. -/
theorem subWraps : Obligations.SubWraps :=
  ⟨encodedRI_of_assemble (o := .sub) fun _ => rfl,
    fun r imm s => completesWith_setReg_advance .sub s r (s.reg r - imm)
      (post := fun v => (v.toNat : Int) = ((s.reg r).toNat - imm.toNat) % 2 ^ 32) (toNat_sub_eq_emod _ _)⟩

end Sys2Proof.Machine
end

section
/-! SUPPORT. Proofs about the encoding (spec/30_encoding.md R80 to R95): decoding gives back what was encoded, it reads
the used bits and no others, and it fails for three reasons. -/

namespace Sys2Proof.Machine

open Sys2Proof.Certificates

/-! Decode and encode agree. -/

/-- Settles O5: the encoding is eight bytes behind the opcode's own, and assembling an instruction's own operands gives
it back. -/
theorem decodeOfEncodeIsTheInstruction : Obligations.DecodeOfEncodeIsTheInstruction := by
  intro i rest
  have hdecode := decode_eight (o := i.opcode) i.operands.rs i.operands.disp i.operands.scale
    (i.operands.imm.extractLsb' 0 8) (i.operands.imm.extractLsb' 8 8) (i.operands.imm.extractLsb' 16 8)
    (i.operands.imm.extractLsb' 24 8) rest
  rw [leWord_leBytes, assemble_operands] at hdecode
  exact hdecode

/-- Two instructions with the same encoding are the same. -/
theorem encode_injective {i j : Instr} (h : encode i = encode j) : i = j := by
  have hi := decodeOfEncodeIsTheInstruction i []
  rw [h, decodeOfEncodeIsTheInstruction j []] at hi
  exact (Prod.mk.inj (Except.ok.inj hi)).1.symm

/-! The used bits. -/

/-- Encoding one register keeps the two low bits of the select byte it was read from (R83, R97). -/
theorem selectByte_regAt_one (rs : Byte) : selectByte (regAt rs 1) = rs &&& 0x03#8 := by
  revert rs; decide

/-- Encoding two registers keeps the four low bits. -/
theorem selectByte_regAt_two (rs : Byte) : selectByte (regAt rs 1) (regAt rs 2) = rs &&& 0x0F#8 := by
  revert rs; decide

theorem byte_and_all (b : Byte) : b &&& 0xFF#8 = b := BitVec.and_allOnes

/-- Encoding what eight bytes assemble to keeps the bits the opcode uses, and gives 0 for the others (R88, R97). -/
theorem encode_assemble (o : Opcode) (rs disp scale b0 b1 b2 b3 : Byte) :
    encode (assemble o ⟨rs, disp, scale, leWord b0 b1 b2 b3⟩)
      = List.zipWith (· &&& ·) [o.toByte, rs, disp, scale, b0, b1, b2, b3] o.usedBits := by
  have hzero : leBytes 0#32 = [0#8, 0#8, 0#8, 0#8] := by decide
  cases o <;>
    simp only [encode, assemble, Instr.opcode, Instr.operands, Opcode.usedBits, List.zipWith_cons_cons,
      List.zipWith_nil_left, leBytes_leWord, hzero, selectByte_regAt_one, selectByte_regAt_two, byte_and_all,
      BitVec.and_zero]

/-- The whole opcode byte is used (R82). -/
theorem usedBits_opcode (o : Opcode) : ∃ masks, o.usedBits = 0xFF#8 :: masks := by
  cases o <;> exact ⟨_, rfl⟩

/-- Settles O6: an instruction is its encoding, and the encoding of what the bytes assemble to is the bytes on their
used bits. -/
theorem decodeReadsExactlyTheUsedBits : Obligations.DecodeReadsExactlyTheUsedBits := by
  intro bytes rest i hlen
  obtain ⟨op, rs, disp, scale, b0, b1, b2, b3, rfl⟩ : ∃ op rs disp scale b0 b1 b2 b3,
      bytes = [op, rs, disp, scale, b0, b1, b2, b3] := by
    match bytes, hlen with
    | [op, rs, disp, scale, b0, b1, b2, b3], _ => exact ⟨op, rs, disp, scale, b0, b1, b2, b3, rfl⟩
  constructor
  · intro h
    obtain ⟨o, _, _, _, _, _, _, _, hbytes, rfl⟩ := decode_ok h
    simp only [List.cons_append, List.nil_append, List.cons.injEq, and_true] at hbytes
    obtain ⟨rfl, rfl, rfl, rfl, rfl, rfl, rfl, rfl⟩ := hbytes
    rw [opcode_assemble, encode_assemble]
  · intro h
    have hop : op = i.opcode.toByte := by
      obtain ⟨masks, hmasks⟩ := usedBits_opcode i.opcode
      have hhead := h
      rw [hmasks, List.zipWith_cons_cons, byte_and_all] at hhead
      exact (List.cons.inj hhead).1
    subst hop
    rw [← encode_assemble] at h
    rw [← encode_injective h]
    simpa using decode_eight ..

/-! How decoding ends. -/

/-- The four ways decoding ends. -/
theorem decode_cases (bytes : List Byte) :
    (bytes = [] ∧ decode bytes = .error .noOpcode) ∨
    (∃ op tail, bytes = op :: tail ∧ op ∉ opcodeBytes ∧ decode bytes = .error (.unknownOpcode op)) ∨
    (∃ op tail, bytes = op :: tail ∧ op ∈ opcodeBytes ∧ tail.length < 7 ∧
      decode bytes = .error (.operandBlockCut op)) ∨
    ∃ op tail i rest, bytes = op :: tail ∧ op ∈ opcodeBytes ∧ 7 ≤ tail.length ∧ decode bytes = .ok (i, rest) := by
  cases bytes with
  | nil => exact .inl ⟨rfl, rfl⟩
  | cons op tail =>
    right
    cases ho : Opcode.ofByte op with
    | none => exact .inl ⟨op, tail, rfl, not_mem_opcodeBytes ho, by simp only [decode, ho]⟩
    | some o =>
      have hop : op ∈ opcodeBytes := Opcode.ofByte_eq_some.mp ho ▸ toByte_mem_opcodeBytes o
      right
      match tail with
      | rs :: disp :: scale :: b0 :: b1 :: b2 :: b3 :: rest =>
        exact .inr ⟨op, _, _, rest, rfl, hop, by simp, by simp only [decode, ho]; rfl⟩
      | [] | [_] | [_, _] | [_, _, _] | [_, _, _, _] | [_, _, _, _, _] | [_, _, _, _, _, _] =>
        exact .inl ⟨op, _, rfl, hop, by simp, by simp only [decode, ho]⟩

/-- Settles O7: each of the four ways decoding ends meets its own description and no other. -/
theorem decodeTakesEightBytesOrFailsByName : Obligations.DecodeTakesEightBytesOrFailsByName := by
  intro bytes
  refine ⟨fun i rest h => ?_, ?_⟩
  · obtain ⟨o, rs, disp, scale, b0, b1, b2, b3, rfl, -⟩ := decode_ok h
    exact ⟨by simp, by simp⟩
  · rcases decode_cases bytes with ⟨rfl, h⟩ | ⟨op, tail, rfl, hop, h⟩ | ⟨op, tail, rfl, hop, hlen, h⟩ |
      ⟨op, tail, i, rest, rfl, hop, hlen, h⟩ <;> rw [h] <;> grind

/-- Settles O4: the words of the spec, decoded. -/
theorem specWordsDecode : Obligations.SpecWordsDecode := by
  refine ⟨?_, ?_, ?_, ?_, ?_, ?_⟩ <;> decide

end Sys2Proof.Machine
end

section
/-! SUPPORT. Proofs about the whole machine: what a step can change of each part of the state, and from that the
invariant of a core, the rules of the flags, the output, memory and `sp`, and the faults. -/

namespace Sys2Proof.Machine

open Sys2Proof.Certificates

/-! What a completed instruction changes, part by part. -/

/-- No instruction writes `sp` or the parameters (spec/10_state.md R26). -/
theorem Completed.sp_cfg {s t : State} {i : Instr} (h : Completed s i t) : t.sp = s.sp ∧ t.cfg = s.cfg := by
  cases h <;> exact ⟨rfl, rfl⟩

/-- Only CPR writes the flags (R28). -/
theorem Completed.flags {s t : State} {i : Instr} (h : Completed s i t) :
    t.flags = s.flags ∨ ∃ r imm, i = .cpr r imm ∧ t.flags = compareFlags s.cfg (s.reg r - imm) s.flags := by
  cases h with
  | cpr r imm => exact .inr ⟨r, imm, rfl, rfl⟩
  | _ => exact .inl rfl

/-- Only ST writes memory, the bytes of its width at its effective address (spec/42_load_store.md R142). -/
theorem Completed.mem {s t : State} {i : Instr} (h : Completed s i t) :
    t.mem = s.mem ∨ ∃ r addr disp scale, i = .st r addr disp scale ∧ scale ∈ [1#8, 2#8, 4#8] ∧
      (effectiveAddress addr disp scale).toNat + scale.toNat ≤ s.cfg.memSize ∧
      t.mem = s.mem.writeLE (effectiveAddress addr disp scale).toNat scale.toNat (s.reg r) := by
  cases h with
  | st r addr disp scale hw hin => exact .inr ⟨r, addr, disp, scale, rfl, hw, hin, rfl⟩
  | _ => exact .inl rfl

/-- Only trap 1 appends to the output, the port byte (spec/44_system.md R172). -/
theorem Completed.out {s t : State} {i : Instr} (h : Completed s i t) :
    t.out = s.out ∨ i = .brk trapEmit ∧ t.out = s.out ++ [s.mem.read outPort.toNat] := by
  cases h with
  | brk => exact .inr ⟨rfl, rfl⟩
  | _ => exact .inl rfl

/-- Every instruction but a taken branch goes on at the next one (spec/30_encoding.md R91). -/
theorem Completed.pc {s t : State} {i : Instr} (h : Completed s i t) :
    (t.pc = s.pc + 8#32 ∧ (∀ addr disp scale, i ≠ .br addr disp scale) ∧
      ∀ mask addr disp scale, i = .brc mask addr disp scale → s.flags &&& mask = 0#8) ∨
    (∃ addr disp scale, i = .br addr disp scale ∧ t.pc = effectiveAddress addr disp scale) ∨
    ∃ mask addr disp scale, i = .brc mask addr disp scale ∧ s.flags &&& mask ≠ 0#8 ∧
      t.pc = effectiveAddress addr disp scale := by
  cases h with
  | br addr disp scale => exact .inr (.inl ⟨addr, disp, scale, rfl, rfl⟩)
  | brcTaken mask addr disp scale h => exact .inr (.inr ⟨mask, addr, disp, scale, rfl, h, rfl⟩)
  | brcNotTaken mask addr disp scale h =>
    refine .inl ⟨rfl, nofun, fun _ _ _ _ hi => ?_⟩
    cases hi
    exact h
  | _ => exact .inl ⟨rfl, nofun, nofun⟩

/-! What a step changes. -/

/-- A step completes the fetched instruction, or takes one fault, recorded at the instruction's own address. -/
theorem step_completed_or_fault {s t : State} (h : step s = .next t) :
    (∃ i, fetch s = .ok i ∧ Completed s i t) ∨ ∃ r, t = takeFault r s ∧ r.addr = s.pc := by
  obtain ⟨-, ⟨r, hf, rfl⟩ | ⟨i, hf, hc⟩ | ⟨i, e, -, -, rfl⟩⟩ := step_cases h
  · refine .inr ⟨r, rfl, ?_⟩
    rcases fetch_cases s with ⟨-, hf'⟩ | ⟨-, -, hf'⟩ | ⟨-, -, -, hf'⟩ | ⟨-, _, -, hf'⟩ <;>
      rw [hf'] at hf <;> cases hf <;> rfl
  · exact .inl ⟨i, hf, hc⟩
  · exact .inr ⟨_, rfl, rfl⟩

theorem step_sp_cfg {s t : State} (h : step s = .next t) : t.sp = s.sp ∧ t.cfg = s.cfg := by
  rcases step_completed_or_fault h with ⟨i, -, hc⟩ | ⟨r, rfl, -⟩
  · exact hc.sp_cfg
  · exact ⟨rfl, rfl⟩

theorem step_flags {s t : State} (h : step s = .next t) :
    t.flags = s.flags ∨ ∃ r imm, fetch s = .ok (.cpr r imm) ∧ t.flags = compareFlags s.cfg (s.reg r - imm) s.flags := by
  rcases step_completed_or_fault h with ⟨i, hf, hc⟩ | ⟨r, rfl, -⟩
  · rcases hc.flags with he | ⟨r, imm, rfl, he⟩
    · exact .inl he
    · exact .inr ⟨r, imm, hf, he⟩
  · exact .inl rfl

theorem step_mem {s t : State} (h : step s = .next t) :
    t.mem = s.mem ∨ ∃ r addr disp scale, fetch s = .ok (.st r addr disp scale) ∧ scale ∈ [1#8, 2#8, 4#8] ∧
      (effectiveAddress addr disp scale).toNat + scale.toNat ≤ s.cfg.memSize ∧
      t.mem = s.mem.writeLE (effectiveAddress addr disp scale).toNat scale.toNat (s.reg r) := by
  rcases step_completed_or_fault h with ⟨i, hf, hc⟩ | ⟨r, rfl, -⟩
  · rcases hc.mem with he | ⟨r, addr, disp, scale, rfl, hw, hin, he⟩
    · exact .inl he
    · exact .inr ⟨r, addr, disp, scale, hf, hw, hin, he⟩
  · exact .inl rfl

/-! The invariant of a core. -/

/-- What a step writes to memory keeps its canonical form, within the array. -/
theorem step_keeps_mem {s t : State} (h : step s = .next t) (hwf : s.mem.wf) (hin : s.mem.within s.cfg.memSize) :
    t.mem.wf ∧ t.mem.within s.cfg.memSize := by
  rcases step_mem h with he | ⟨r, addr, disp, scale, -, -, hfits, he⟩ <;> rw [he]
  · exact ⟨hwf, hin⟩
  · exact ⟨Memory.wf_writeLE hwf _ _ _, Memory.within_writeLE hin hfits _⟩

/-- A step leaves the bits other than Z and N as they were (spec/10_state.md R28). -/
theorem step_flags_outside {s t : State} (h : step s = .next t) :
    t.flags &&& ~~~(s.cfg.flagZMask ||| s.cfg.flagNMask) = s.flags &&& ~~~(s.cfg.flagZMask ||| s.cfg.flagNMask) := by
  rcases step_flags h with he | ⟨r, imm, -, he⟩ <;> rw [he]
  exact compareFlags_outside ..

/-- Settles O37: each part of the invariant is kept by what a step does to that part of the state. -/
theorem stepKeepsTheInvariant : Obligations.StepKeepsTheInvariant := by
  intro s t hinv h
  obtain ⟨-, hcfg⟩ := step_sp_cfg h
  obtain ⟨hwf, hwithin⟩ := step_keeps_mem h hinv.memWf hinv.memWithin
  exact {
    cfg := hcfg ▸ hinv.cfg
    memWf := hwf
    memWithin := hcfg ▸ hwithin
    flags := by rw [hcfg, step_flags_outside h, hinv.flags] }

/-- A preloaded core with legal parameters meets the invariant. -/
theorem inv_preloaded {c : Config} {image : List Byte} (hc : c.legal = true) (hlen : image.length ≤ c.memSize) :
    (preloaded c image).Inv where
  cfg := hc
  memWf := Memory.wf_load Memory.wf_empty 0 image
  memWithin := Memory.within_load (Memory.within_empty _) (by simpa using hlen)
  flags := BitVec.zero_and

/-- Settles O38: the reset state is the preload of the empty image in the reference configuration. -/
theorem resetMeetsTheInvariant : Obligations.ResetMeetsTheInvariant := by
  refine ⟨inv_preloaded (c := referenceConfig) (image := []) (by decide) (Nat.zero_le _), fun c image s hc h => ?_⟩
  obtain ⟨hlen, rfl⟩ := preload_eq_some h
  exact inv_preloaded hc hlen

/-! What an outcome does not depend on. -/

/-- Which fault an instruction raises depends on the registers and `MEM_SIZE` alone. -/
theorem Raises.congr {s u : State} {i : Instr} {e : Raise} (h : Raises s i e) (hregs : u.regs = s.regs)
    (hcfg : u.cfg = s.cfg) : Raises u i e := by
  have hreg (r : Reg) : u.reg r = s.reg r := by rw [State.reg, hregs, State.reg]
  cases h with
  | divideByZero => exact .divideByZero _
  | ldMemWidth _ _ _ _ hw => exact .ldMemWidth _ _ _ _ hw
  | ldMemAddress _ _ _ _ hw h => exact .ldMemAddress _ _ _ _ hw (hcfg ▸ h)
  | ldrWidth _ _ _ hw => exact .ldrWidth _ _ _ hw
  | ldrAddress r1 r2 scale hw h =>
    rw [← hreg r2, ← hcfg] at h
    exact hreg r2 ▸ .ldrAddress r1 r2 scale hw h
  | stWidth _ _ _ _ hw => exact .stWidth _ _ _ _ hw
  | stAddress _ _ _ _ hw h => exact .stAddress _ _ _ _ hw (hcfg ▸ h)
  | unknownTrap _ h => exact .unknownTrap _ h
  | port h => exact .port (hcfg ▸ h)

/-- An instruction that is no BRC completes the same way whatever the flags are. -/
theorem Completed.of_flags {s t : State} {i : Instr} (h : Completed s i t) (hi : ∀ m a d k, i ≠ .brc m a d k)
    (f : Byte) : ∃ g, Completed { s with flags := f } i { t with flags := g } := by
  cases h with
  | brcTaken | brcNotTaken => exact absurd rfl (hi _ _ _ _)
  | cpr r imm => exact ⟨_, .cpr (s := { s with flags := f }) r imm⟩
  | _ => exact ⟨f, by constructor <;> assumption⟩

/-- An instruction completes the same way whatever `sp` is. -/
theorem Completed.of_sp {s t : State} {i : Instr} (h : Completed s i t) (v : Word) :
    Completed { s with sp := v } i { t with sp := v } := by
  cases h <;> constructor <;> assumption

/-- What every step keeps holds of every state a preloaded core reaches, if it holds of the preloaded core. -/
theorem reaches_keeps {P : State → Prop} (hstep : ∀ s t, P s → step s = .next t → P t) {c : Config}
    {image : List Byte} {k : Nat} {t : State} (h : Reaches c image k t)
    (hinit : image.length ≤ c.memSize → P (preloaded c image)) : P t := by
  obtain ⟨s, hs, hrun⟩ := h
  obtain ⟨hlen, rfl⟩ := preload_eq_some hs
  exact run_keeps hstep k _ t (hinit hlen) hrun

/-! The flags. -/

/-- Settles O30: CPR alone writes the flags and only sets Z and N, BRC alone looks at them, and the invariant holds
along every run. -/
theorem flagsAreStickyAndCprOnly : Obligations.FlagsAreStickyAndCprOnly := by
  refine ⟨fun s t h => ?_, fun i s t f hi h => ?_, fun c image k t hc hreach => ?_⟩
  · rcases step_flags h with he | ⟨r, imm, hf, he⟩ <;> rw [he]
    · exact ⟨BitVec.and_self, fun hne => absurd rfl hne⟩
    · exact ⟨compareFlags_keeps .., fun _ => ⟨r, imm, hf⟩⟩
  · rcases exec_next h with hcomp | ⟨e, hr, rfl⟩
    · obtain ⟨g, hg⟩ := hcomp.of_flags hi f
      exact ⟨_, exec_of_completed hg, sameOutcome_self t⟩
    · exact ⟨_, exec_of_raises (hr.congr rfl rfl), sameOutcome_self _⟩
  · have hkeeps : t.Inv ∧ t.cfg = c := reaches_keeps (P := fun u => u.Inv ∧ u.cfg = c)
      (fun s u hs hu => ⟨stepKeepsTheInvariant s u hs.1 hu, (step_sp_cfg hu).2.trans hs.2⟩)
      hreach fun hlen => ⟨inv_preloaded hc hlen, rfl⟩
    obtain ⟨hinv, rfl⟩ := hkeeps
    exact hinv.flags

/-! `sp`. -/

/-- A step does not depend on `sp`: the fetch does not look at it, and the instruction neither. -/
theorem step_of_sp {s t : State} (h : step s = .next t) (v : Word) :
    step { s with sp := v } = .next { t with sp := v } := by
  obtain ⟨hs, ⟨r, hf, rfl⟩ | ⟨i, hf, hc⟩ | ⟨i, e, hf, hr, rfl⟩⟩ := step_cases h <;>
    rw [step_of_running (show State.status { s with sp := v } = .running from hs),
      show fetch { s with sp := v } = fetch s from rfl, hf]
  · rfl
  · exact exec_of_completed (hc.of_sp v)
  · exact exec_of_raises (hr.congr rfl rfl)

/-- Settles O39: no step writes `sp` or looks at it, so it keeps its reset value along every run. -/
theorem spIsNeverUsed : Obligations.SpIsNeverUsed := by
  refine ⟨fun s t h => step_sp_cfg h, fun s t v h => ⟨_, step_of_sp h v, sameOutcome_self _⟩, fun c image k t h => ?_⟩
  exact reaches_keeps (P := fun u => u.sp = spReset) (fun s u hs hu => (step_sp_cfg hu).1.trans hs) h fun _ => rfl

/-! Output, memory and `pc`. -/

/-- Settles O33: trap 1 alone appends to the output, which a preloaded core starts empty. -/
theorem outputOnlyGrowsByTrapOne : Obligations.OutputOnlyGrowsByTrapOne := by
  refine ⟨fun s t h => ?_, rfl, fun c image s h => ?_⟩
  · rcases step_completed_or_fault h with ⟨i, hf, hc⟩ | ⟨r, rfl, -⟩
    · rcases hc.out with he | ⟨rfl, he⟩
      · exact .inl he
      · exact .inr ⟨hf, he⟩
    · exact .inl rfl
  · rw [(preload_eq_some h).2, preloaded_out]

/-- Settles O34: ST alone writes memory, and only the bytes of its access. -/
theorem onlyStWritesMemory : Obligations.OnlyStWritesMemory := by
  intro s t a h hne
  rcases step_mem h with he | ⟨r, addr, disp, scale, hf, hw, -, he⟩
  · exact absurd (by rw [he]) hne
  · refine ⟨r, addr, disp, scale, hf, hw, ?_⟩
    by_contra hout
    exact hne (he ▸ Memory.read_writeLE_outside _ _ (by omega))

/-- Settles O42: every completed instruction but a taken branch goes on at the next one. -/
theorem pcAdvancesByEightUnlessBranching : Obligations.PcAdvancesByEightUnlessBranching := by
  intro s t h hnofault
  rcases step_completed_or_fault h with ⟨i, hf, hc⟩ | ⟨r, rfl, -⟩
  · rw [hf]
    simp only [Except.ok.injEq, ne_eq]
    refine hc.pc.imp_left fun ⟨hpc, hrest⟩ => ⟨?_, hrest⟩
    rw [hpc, BitVec.toNat_add, BitVec.toNat_ofNat]
  · exact absurd rfl (hnofault r)

/-! Faults. -/

/-- A step that ends Faulted took the fault on record, and that alone. -/
theorem step_faulted {s t : State} {rec : FaultRecord} (h : step s = .next t) (ht : t.status = .faulted rec) :
    t = takeFault rec s ∧ rec.addr = s.pc := by
  rcases step_completed_or_fault h with ⟨i, -, hc⟩ | ⟨r, rfl, haddr⟩
  · exact absurd ht ((hc.status_of_running (step_cases h).1).2 rec)
  · cases ht
    exact ⟨rfl, haddr⟩

/-- Settles O35: taking a fault writes `pc`, `status` and the model's counter only. -/
theorem faultingStepWritesNothing : Obligations.FaultingStepWritesNothing := by
  intro s t rec h ht
  obtain ⟨rfl, haddr⟩ := step_faulted h ht
  exact ⟨rfl, rfl, rfl, rfl, rfl, rfl, haddr⟩

/-- Only a well-formed instruction completes. -/
theorem Completed.wellFormed {s t : State} {i : Instr} (h : Completed s i t) : i.wellFormed = true := by
  cases h with
  | div r imm h => exact decide_eq_true h
  | ldMem _ _ _ _ hw => exact isWidth_iff.mpr hw
  | ldr _ _ _ hw => exact isWidth_iff.mpr hw
  | st _ _ _ _ hw => exact isWidth_iff.mpr hw
  | _ => rfl

/-- A well-formed instruction raises the address fault alone, and an ill-formed one an operand fault
(spec/60_exceptions.md R190, causes 2 to 4). -/
theorem Raises.wellFormed {s : State} {i : Instr} {e : Raise} (h : Raises s i e) :
    (i.wellFormed = true ∧ e.cause = .addressOutOfRange) ∨
    (i.wellFormed = false ∧ (e.cause = .badWidth ∨ e.cause = .unknownTrap ∨ e.cause = .divideByZero)) := by
  have noWidth {w : Byte} (hw : w ∉ [1#8, 2#8, 4#8]) : isWidth w = false := by
    rwa [← Bool.not_eq_true, isWidth_iff]
  cases h with
  | divideByZero => exact .inr ⟨rfl, .inr (.inr rfl)⟩
  | ldMemWidth _ _ _ _ hw => exact .inr ⟨noWidth hw, .inl rfl⟩
  | ldrWidth _ _ _ hw => exact .inr ⟨noWidth hw, .inl rfl⟩
  | stWidth _ _ _ _ hw => exact .inr ⟨noWidth hw, .inl rfl⟩
  | unknownTrap code h => exact .inr ⟨decide_eq_false h, .inr (.inl rfl)⟩
  | ldMemAddress _ _ _ _ hw => exact .inl ⟨isWidth_iff.mpr hw, rfl⟩
  | ldrAddress _ _ _ hw => exact .inl ⟨isWidth_iff.mpr hw, rfl⟩
  | stAddress _ _ _ _ hw => exact .inl ⟨isWidth_iff.mpr hw, rfl⟩
  | port => exact .inl ⟨rfl, rfl⟩

/-- Settles O29: an instruction that completes is well-formed, and what it raises otherwise tells whether it is. -/
theorem illFormedFaultsOnOperandWellFormedOnlyOnAddress :
    Obligations.IllFormedFaultsOnOperandWellFormedOnlyOnAddress := by
  intro i s
  refine ⟨fun hill => ?_, fun hwell t ht => ?_⟩
  · rcases exec_cases i s with ⟨t, -, hc⟩ | ⟨e, he, hr⟩
    · simp [hc.wellFormed] at hill
    · rcases hr.wellFormed with ⟨hwell, -⟩ | ⟨-, hcause⟩
      · simp [hwell] at hill
      · exact ⟨_, _, he, rfl, hcause⟩
  · rcases exec_next ht with hc | ⟨e, hr, rfl⟩
    · exact hc.status.imp_right .inl
    · rcases hr.wellFormed with ⟨-, hcause⟩ | ⟨hill, -⟩
      · exact .inr (.inr ⟨_, rfl, hcause⟩)
      · simp [hwell] at hill

/-- Eight bytes in memory, the first the byte of an opcode, are fetched as that opcode's instruction. -/
theorem fetch_of_opAt {s : State} {o : Opcode} (h8 : s.pc.toNat + 8 ≤ s.cfg.memSize) (hop : s.opAt = o.toByte) :
    fetch s = .ok (assemble o (fetchOperands s.mem s.pc.toNat)) := by
  have ho : Opcode.ofByte s.opAt = some o := Opcode.ofByte_eq_some.mpr hop
  rcases fetch_cases s with ⟨hout, -⟩ | ⟨-, hnone, -⟩ | ⟨-, hcut, -⟩ | ⟨-, o', ho', hf⟩
  · omega
  · simp [ho] at hnone
  · omega
  · rw [ho, Option.some.injEq] at ho'
    exact ho' ▸ hf

/-- A Running core whose fetched instruction raises takes that fault. -/
theorem step_of_raises {s : State} {o : Opcode} {e : Raise} (hs : s.status = .running)
    (h8 : s.pc.toNat + 8 ≤ s.cfg.memSize) (hop : s.opAt = o.toByte)
    (hr : Raises s (assemble o (fetchOperands s.mem s.pc.toNat)) e) :
    step s = .next (takeFault ⟨e.cause, e.value, s.pc, some s.opAt⟩ s) := by
  rw [step_of_running hs, fetch_of_opAt h8 hop, hop]
  simpa using exec_of_raises hr

/-- A Running core takes the fault that is due. -/
theorem step_of_faultDue {s : State} {rec : FaultRecord} (hs : s.status = .running) (h : FaultDue s rec) :
    step s = .next (takeFault rec s) := by
  cases h with
  | opcodeOutside hpc =>
    refine step_of_fetch_error hs ?_
    rw [fetch, if_neg (by omega)]
  | unknownOpcode hpc hop => exact step_of_fetch_error hs (fetch_illegal hpc hop)
  | operandsOutside hpc hop hcut =>
    refine step_of_fetch_error hs ?_
    rcases fetch_cases s with ⟨hout, -⟩ | ⟨-, hnone, -⟩ | ⟨-, -, -, hf⟩ | ⟨h8, -⟩
    · omega
    · exact absurd hop (not_mem_opcodeBytes hnone)
    · exact hf
    · omega
  | badWidth h8 hop hw =>
    simp only [List.mem_cons, List.not_mem_nil, or_false] at hop
    rcases hop with hop | hop | hop
    · exact step_of_raises (o := .ldMem) hs h8 hop (.ldMemWidth _ _ _ _ hw)
    · exact step_of_raises (o := .ldr) hs h8 hop (.ldrWidth _ _ _ hw)
    · exact step_of_raises (o := .st) hs h8 hop (.stWidth _ _ _ _ hw)
  | dataOutside h8 hop hw hout =>
    simp only [List.mem_cons, List.not_mem_nil, or_false] at hop
    rcases hop with hop | hop
    · exact step_of_raises (o := .ldMem) hs h8 hop (.ldMemAddress _ _ _ _ hw hout)
    · exact step_of_raises (o := .st) hs h8 hop (.stAddress _ _ _ _ hw hout)
  | indirectOutside r2 h8 hop hw hr2 hout =>
    obtain rfl := regAt_two_eq hr2
    exact step_of_raises (o := .ldr) hs h8 hop (.ldrAddress _ _ _ hw hout)
  | divideByZero h8 hop himm =>
    refine step_of_raises (o := .div) hs h8 hop (e := ⟨.divideByZero, 0#32⟩) ?_
    rw [assemble, show (fetchOperands s.mem s.pc.toNat).imm = 0#32 from himm]
    exact .divideByZero _
  | unknownTrap h8 hop hcode => exact step_of_raises (o := .brk) hs h8 hop (.unknownTrap _ hcode)
  | portOutside h8 hop hcode hport =>
    refine step_of_raises (o := .brk) hs h8 hop (e := ⟨.addressOutOfRange, outPort⟩) ?_
    rw [assemble, show (fetchOperands s.mem s.pc.toNat).imm = trapEmit from hcode]
    exact .port hport

/-- Settles O36: a fault a step took was due, and a fault that is due is taken. -/
theorem faultsAreExactlyTheTable : Obligations.FaultsAreExactlyTheTable := by
  intro s t rec h
  obtain ⟨hs, -, hdue⟩ := statusChangesOnlyByStpAndFaults.1 s t h
  refine ⟨hdue rec, fun hrec => ?_⟩
  rw [step_of_faultDue hs hrec, Host.Outcome.next.injEq] at h
  rw [← h, takeFault_status]

/-! The engine. -/

/-- A Running core runs the instruction it fetches. -/
theorem step_of_fetch {s : State} {i : Instr} (hs : s.status = .running) (hf : fetch s = .ok i) :
    step s = exec i s := by
  rw [step_of_running hs, hf]

/-- Settles O9: bytes that decode to an instruction are fetched as it. -/
theorem stepRunsTheDecodedInstruction : Obligations.StepRunsTheDecodedInstruction :=
  fun _ _ hs h8 hd => step_of_fetch hs (fetch_of_decode h8 hd)

/-- Every instruction answers a next state. -/
theorem exec_answers_next (i : Instr) (s : State) : ∃ t, exec i s = .next t := by
  rcases exec_cases i s with ⟨t, h, -⟩ | ⟨e, h, -⟩ <;> exact ⟨_, h⟩

/-- Settles O32: a fetch fault and every instruction answer a next state. -/
theorem runningCoreAlwaysSteps : Obligations.RunningCoreAlwaysSteps := by
  intro s
  refine ⟨fun hs => ?_, fun ⟨t, h⟩ => (step_cases h).1⟩
  cases hf : fetch s with
  | error r => exact ⟨_, step_of_fetch_error hs hf⟩
  | ok i => rw [step_of_fetch hs hf]; exact exec_answers_next i s

/-- Settles O45: an exit code exists exactly for the statuses other than Running. -/
theorem runEndsHaltedOrFaulted : Obligations.RunEndsHaltedOrFaulted := by
  refine ⟨fun s => ?_, rfl, fun _ => rfl, rfl⟩
  have hcode : exitCode s.status ≠ none ↔ s.status ≠ .running := by
    cases s.status <;> simp [exitCode]
  rw [hcode, Ne, runningCoreAlwaysSteps s, not_exists]

/-- The operand block is made of seven bytes of memory. -/
theorem fetchOperands_congr {m m' : Memory} {ia : Nat} (h : ∀ k, k < 8 → m'.read (ia + k) = m.read (ia + k)) :
    fetchOperands m' ia = fetchOperands m ia := by
  simp only [fetchOperands, h 1 (by decide), h 2 (by decide), h 3 (by decide), h 4 (by decide), h 5 (by decide),
    h 6 (by decide), h 7 (by decide)]

/-- Settles O44: the fetch looks at the opcode byte where it lies in memory, and at the operand block where it does. -/
theorem fetchDependsOnItsBytesAlone : Obligations.FetchDependsOnItsBytesAlone := by
  intro s u hpc hsize hbytes
  unfold fetch State.inRange
  rw [hpc, hsize]
  by_cases hin : s.pc.toNat + 1 ≤ s.cfg.memSize
  · have hop : u.mem.read s.pc.toNat = s.mem.read s.pc.toNat := hbytes 0 (by decide) hin
    rw [hop]
    by_cases h8 : s.pc.toNat + 8 ≤ s.cfg.memSize
    · rw [fetchOperands_congr fun k hk => hbytes k hk (by omega)]
    · simp only [if_neg h8]
  · simp only [if_neg hin]

end Sys2Proof.Machine
end

section
/-! SUPPORT. Proofs about memory and reset: the access primitives, narrow reads of a wide write, the stack's push and
pop, and preloading. -/

namespace Sys2Proof.Machine

open Sys2Proof.Certificates

/-! Bytes of a word. -/

/-- The low byte of a shifted word, as a number. -/
theorem toNat_shifted_byte (v : Word) (k : Nat) : ((v >>> (8 * k)).setWidth 8).toNat = v.toNat / 256 ^ k % 256 := by
  rw [BitVec.toNat_setWidth, BitVec.toNat_ushiftRight, Nat.shiftRight_eq_div_pow, pow_mul]
  norm_num

/-- The low byte of a shifted word, as a slice. -/
theorem shifted_byte_eq_extractLsb' (v : Word) (k : Nat) : (v >>> (8 * k)).setWidth 8 = v.extractLsb' (8 * k) 8 := by
  ext i hi
  simp

/-! The primitives (spec/00_scope.md R12). -/

/-- A write that is in range leaves everything but memory as it was. -/
theorem frame_setMem (s : State) (m : Memory) : Frame [.mem] s { s with mem := m } where
  regs _ _ := rfl
  flags _ := rfl
  mem h := absurd List.mem_cons_self h
  out _ := rfl
  status _ := rfl
  sp := rfl
  cfg := rfl
  draws := rfl

/-- Settles O11: past memory neither primitive does anything; within it, a read sums the bytes and a write places
them. -/
theorem memoryPrimitivesCheckTheWholeAccess : Obligations.MemoryPrimitivesCheckTheWholeAccess := by
  refine ⟨fun s a v n h => ⟨memRead_outside h, memWrite_outside v h⟩,
    fun s a n hn h => ⟨_, memRead_inside h, (s.mem.readLE_toNat a.toNat n hn).2⟩,
    fun s a v n _ h hwf => ⟨_, memWrite_inside v h, fun k hk => ?_, fun b hb => ?_, frame_setMem s _, rfl⟩⟩
  · rw [Memory.read_writeLE_inside hwf a.toNat n v hk, toNat_shifted_byte]
  · exact Memory.read_writeLE_outside _ v hb

/-- A write that succeeds was in range, and keeps the parameters. -/
theorem memWrite_ok {s t : State} {a v : Word} {n : Nat} (h : memWrite s a n v = .ok t) :
    a.toNat + n ≤ s.cfg.memSize ∧ t.mem = s.mem.writeLE a.toNat n v ∧ t.cfg = s.cfg := by
  by_cases hin : a.toNat + n ≤ s.cfg.memSize
  · rw [memWrite_inside v hin, Except.ok.injEq] at h
    exact ⟨hin, h ▸ rfl, h ▸ rfl⟩
  · rw [memWrite_outside v (Nat.lt_of_not_le hin)] at h
    cases h

/-- A read that succeeds was in range. -/
theorem memRead_ok {s : State} {a x : Word} {n : Nat} (h : memRead s a n = .ok x) : x = s.mem.readLE a.toNat n := by
  by_cases hin : a.toNat + n ≤ s.cfg.memSize
  · rw [memRead_inside hin, Except.ok.injEq] at h
    exact h.symm
  · rw [memRead_outside (Nat.lt_of_not_le hin)] at h
    cases h

/-- A read of `n` bytes inside a write of `w` bytes gives that slice of the value. -/
theorem readLE_inside_writeLE {m : Memory} (hm : m.wf) (a w : Nat) (v : Word) {k n : Nat} (hn : n ≤ 4)
    (hk : k + n ≤ w) : (m.writeLE a w v).readLE (a + k) n = (v.extractLsb' (8 * k) (8 * n)).setWidth 32 := by
  apply BitVec.eq_of_toNat_eq
  rw [Memory.readLE_of_bytes (v := v >>> (8 * k)) hn fun j hj => ?_]
  · have hpow : 2 ^ (8 * n) ≤ 2 ^ 32 := Nat.pow_le_pow_right (by decide) (by omega)
    rw [BitVec.toNat_setWidth, BitVec.extractLsb'_toNat, BitVec.toNat_ushiftRight,
      Nat.mod_eq_of_lt (b := 2 ^ 32) ((Nat.mod_lt _ (by positivity)).trans_le hpow)]
  · rw [Nat.add_assoc, Memory.read_writeLE_inside hm a w v (by omega), ← BitVec.shiftRight_add, Nat.mul_add]

/-- Settles O12: a narrow read inside the write gives a slice of the value, and every read sums the bytes. -/
theorem mixedWidthReadsSeeTheBytes : Obligations.MixedWidthReadsSeeTheBytes := by
  intro s t a v hwf h
  obtain ⟨hin, hmem, hcfg⟩ := memWrite_ok h
  have hread {k n : Nat} (hkn : k + n ≤ 4) {b : Word} (hb : b.toNat = a.toNat + k) :
      memRead t b n = .ok ((v.extractLsb' (8 * k) (8 * n)).setWidth 32) := by
    rw [memRead_inside (by rw [hcfg]; omega), hmem, hb, readLE_inside_writeLE hwf _ 4 v (by omega) hkn]
  exact ⟨fun k hk b hb => hread hk hb, fun b hb => hread (k := 1) (n := 2) (by decide) hb,
    fun b n x hn hx => memRead_ok hx ▸ (Memory.readLE_toNat _ _ n (by omega)).2⟩

/-! The stack (spec/10_state.md R26). -/

/-- Reading back the four bytes of a whole word gives the word. -/
theorem readLE_writeLE_four {m : Memory} (hm : m.wf) (a : Nat) (v : Word) : (m.writeLE a 4 v).readLE a 4 = v := by
  simpa using readLE_inside_writeLE hm a 4 v (k := 0) (n := 4) (by decide) (by decide)

/-- A pop in range reads the word at `sp` and moves `sp` up by 4. -/
theorem pop_inside {s : State} {v : Word} (h : s.sp.toNat + 4 ≤ s.cfg.memSize) (hv : s.mem.readLE s.sp.toNat 4 = v) :
    pop s = .ok (v, { s with sp := s.sp + 4#32 }) := by
  simp only [pop, memRead_inside h, hv, bind, Except.bind, pure, Except.pure]

/-- Settles O40: a push in range writes the word, and the pop reads it back at the same address. -/
theorem popAfterPushReturnsTheValue : Obligations.PopAfterPushReturnsTheValue := by
  intro s v hwf hin
  exact ⟨_, _, memWrite_inside v hin, rfl, pop_inside hin (readLE_writeLE_four hwf _ v), BitVec.sub_add_cancel _ _, rfl,
    fun b hb => Memory.read_writeLE_outside _ v hb⟩

/-! Reset and preload (spec/70_reset_and_hazards.md R220, R221). -/

/-- Settles O1: the loaded image inside, the reset values elsewhere. -/
theorem preloadBuildsTheResetState : Obligations.PreloadBuildsTheResetState := by
  refine fun c image hlen => ⟨_, preload_fits hlen, reg_preloaded c image, rfl, rfl, rfl, rfl, rfl, rfl,
    fun k b hk => ?_, fun a ha => ?_⟩
  · obtain ⟨hlt, hb⟩ := List.getElem?_eq_some_iff.mp hk
    rw [preloaded_mem, ← hb]
    simpa using Memory.read_load_inside Memory.wf_empty 0 image hlt
  · rw [preloaded_mem, Memory.read_load_outside _ image (by omega)]
    rfl

/-- Settles O2: a long image is refused, and an empty memory holds an illegal opcode at address 0. -/
theorem oversizedImageIsRefusedAndEmptyOneFaults : Obligations.OversizedImageIsRefusedAndEmptyOneFaults := by
  refine ⟨fun c image h => preload_refused h, fun c s hc h => ?_⟩
  obtain ⟨-, rfl⟩ := preload_eq_some h
  have hillegal : (preloaded c []).opAt ∉ opcodeBytes := by
    rw [show (preloaded c []).opAt = 0#8 from rfl]
    decide
  exact ⟨rfl, _, step_of_fetch_error rfl (fetch_illegal hc hillegal), rfl, untouched_takeFault _ _⟩

/-- Settles O3: the reset state written out. -/
theorem resetIsTheEmptyImage : Obligations.ResetIsTheEmptyImage :=
  ⟨preload_fits (c := referenceConfig) (image := []) (Nat.zero_le _), by decide, rfl, rfl, rfl, rfl,
    reg_preloaded referenceConfig [], rfl, rfl, rfl, rfl, rfl, fun _ => rfl⟩

end Sys2Proof.Machine
end

section
/-! SUPPORT. Proofs about the instructions one by one: what each writes, what it leaves unchanged and which faults it
takes, and the laws of a store followed by a load, a trap or the next instruction. -/

namespace Sys2Proof.Machine

open Sys2Proof.Certificates

/-! Encodings and frames the instructions share. -/

/-- An opcode whose operands assemble to the first register, the immediate, the displacement and the scale has the RM
encoding (spec/30_encoding.md R81, R88). -/
theorem encodedRM_of_assemble {o : Opcode} {mk : Reg → Word → Byte → Byte → Instr}
    (h : ∀ f, assemble o f = mk (regAt f.rs 1) f.imm f.disp f.scale) : EncodedRM o.toByte mk := by
  intro rs disp scale i0 i1 i2 i3 rest r hr
  rw [decode_eight, h, regAt_one_eq hr]
  rfl

/-- A jump writes `pc` alone. -/
theorem frame_jump (s : State) (target : Word) : Frame [] s (s.jump target) :=
  ⟨fun _ _ => rfl, fun _ => rfl, fun _ _ => rfl, fun _ => rfl, fun _ => rfl, rfl, rfl, rfl⟩

/-- Going on to the next instruction after a change writes `pc` beside it. -/
theorem Frame.advance {parts : List StatePart} {s t : State} (h : Frame parts s t) : Frame parts s t.advance :=
  ⟨h.regs, h.flags, h.mem, h.out, h.status, h.sp, h.cfg, h.draws⟩

theorem frame_refl (s : State) : Frame [] s s := frame_jump s s.pc

theorem frame_setFlags (s : State) (f : Byte) : Frame [.flags] s { s with flags := f } :=
  ⟨fun _ _ => rfl, fun h => absurd List.mem_cons_self h, fun _ _ => rfl, fun _ => rfl, fun _ => rfl, rfl, rfl, rfl⟩

theorem frame_emit (s : State) (b : Byte) : Frame [.out] s (s.emit b) :=
  ⟨fun _ _ => rfl, fun _ => rfl, fun _ _ => rfl, fun h => absurd List.mem_cons_self h, fun _ => rfl, rfl, rfl, rfl⟩

theorem frame_setStatus (s : State) (x : Status) : Frame [.status] s { s with status := x } :=
  ⟨fun _ _ => rfl, fun _ => rfl, fun _ _ => rfl, fun _ => rfl, fun h => absurd List.mem_cons_self h, rfl, rfl, rfl⟩

/-- A raise is a fault of the instruction, by its opcode. -/
theorem faultsWith_of_raises {i : Instr} {s : State} {cause : FaultCause} {value : Word}
    (h : Raises s i ⟨cause, value⟩) : FaultsWith (exec i s) s cause value (some i.opcode.toByte) :=
  ⟨_, exec_of_raises h, rfl, untouched_takeFault _ s⟩

/-- A Running core that goes on outside memory faults at the fetch there (spec/92_eei_decisions.md D4). -/
theorem faultsWith_of_jump_outside (s : State) (target : Word) (hs : s.status = .running)
    (h : s.cfg.memSize ≤ target.toNat) :
    FaultsWith (step (s.jump target)) (s.jump target) .addressOutOfRange target none :=
  ⟨_, step_of_faultDue hs (.opcodeOutside h), rfl, untouched_takeFault _ _⟩

/-! Control transfer. -/

/-- Settles O10: the wrapped sum, and the product of the extreme bytes. -/
theorem effectiveAddressIsTheWrappedSum : Obligations.EffectiveAddressIsTheWrappedSum := by
  intro imm disp scale
  have hlo : -128 ≤ disp.toInt := BitVec.le_toInt disp
  have hhi : disp.toInt ≤ 127 := BitVec.toInt_le
  have hscale : (scale.toNat : Int) ≤ 255 := by have := scale.isLt; omega
  exact ⟨effectiveAddress_toNat imm disp scale, by nlinarith, by nlinarith⟩

/-- A BR to its own address leaves the very state. -/
theorem run_br_to_self {s : State} {addr : Word} {disp scale : Byte} (hs : s.status = .running)
    (hf : fetch s = .ok (.br addr disp scale)) (hea : effectiveAddress addr disp scale = s.pc) (k : Nat) :
    Sys2Proof.core.run k s = .next s := by
  have hstep : Sys2Proof.core.step s = .next s := by
    have hexec : exec (.br addr disp scale) s = .next (s.jump (effectiveAddress addr disp scale)) := rfl
    rw [hea] at hexec
    exact (step_of_fetch hs hf).trans hexec
  induction k with
  | zero => rfl
  | succ k ih => simpa only [Host.Core.run, hstep] using ih

/-- Settles O13: BR jumps, and where it jumps shows at the next fetch. -/
theorem brJumpsToTheEffectiveAddress : Obligations.BrJumpsToTheEffectiveAddress :=
  ⟨fun rs disp scale i0 i1 i2 i3 rest => decode_eight (o := .br) rs disp scale i0 i1 i2 i3 rest,
    fun addr disp scale s => ⟨_, rfl, effectiveAddress_toNat addr disp scale, frame_jump s _,
      faultsWith_of_jump_outside s _⟩,
    fun _ _ _ _ k hs hf hea => run_br_to_self hs hf hea k⟩

/-- Bits of `flags` outside Z and N are 0, so a mask of such bits alone misses them. -/
theorem mask_outside_misses {f m zn : Byte} (hf : f &&& ~~~zn = 0#8) (hm : m &&& zn = 0#8) : f &&& m = 0#8 := by
  ext i hi
  have hfi := congrArg (·[i]) hf
  have hmi := congrArg (·[i]) hm
  simp at hfi hmi ⊢
  exact fun hset => by simpa [hfi hset] using hmi

/-- Settles O14: BRC jumps where the mask meets the flags and goes on where it does not. -/
theorem brcBranchesOnTheMaskedFlags : Obligations.BrcBranchesOnTheMaskedFlags := by
  refine ⟨fun rs disp scale i0 i1 i2 i3 rest => decode_eight (o := .brc) rs disp scale i0 i1 i2 i3 rest,
    fun mask addr disp scale s => ?_⟩
  by_cases h : s.flags &&& mask = 0#8
  · refine ⟨_, exec_brc_notTaken addr disp scale h, (frame_refl s).advance, fun hne => absurd h hne, fun _ => rfl,
      faultsWith_of_jump_outside s s.nextPc, fun _ _ => rfl, fun _ hall hset => ?_⟩
    subst hall
    rw [byte_and_all] at h
    simp [h] at hset
  · exact ⟨_, exec_brc_taken addr disp scale h, frame_jump s _, fun _ => effectiveAddress_toNat addr disp scale,
      fun h0 => absurd h0 h, faultsWith_of_jump_outside s _,
      fun hinv hm => absurd (mask_outside_misses hinv.flags hm) h, fun _ _ _ => rfl⟩

/-! Arithmetic. -/

/-- The low word of a product does not depend on how the operands are read (spec/41_arithmetic.md R123). -/
theorem toNat_mul_eq_signed (x y : Word) : ((x * y).toNat : Int) = (x.toInt * y.toInt) % 2 ^ 32 := by
  have h : x * y = BitVec.ofInt 32 (x.toInt * y.toInt) := by simp [BitVec.ofInt_mul]
  rw [h, BitVec.toNat_ofInt, Int.toNat_of_nonneg (Int.emod_nonneg _ (by decide))]
  norm_num

/-- Settles O18: MUL writes the low word of the product. -/
theorem mulKeepsTheLowWord : Obligations.MulKeepsTheLowWord :=
  ⟨encodedRI_of_assemble (o := .mul) fun _ => rfl,
    fun r imm s => completesWith_setReg_advance .mul s r (s.reg r * imm)
      (post := fun v => v.toNat = (s.reg r).toNat * imm.toNat % 2 ^ 32 ∧
        (v.toNat : Int) = ((s.reg r).toInt * imm.toInt) % 2 ^ 32)
      ⟨BitVec.toNat_mul _ _, toNat_mul_eq_signed _ _⟩⟩

/-- Every quotient function divides by 1 (spec/92_eei_decisions.md D8). -/
theorem quotient_one (f : DivFn) (a : Word) : quotient f a 1#32 = a := by
  cases f with
  | unsigned => exact BitVec.udiv_one
  | agnostic => rfl

/-- The unsigned quotient is the largest number whose product with the divisor is at most the dividend (R127). -/
theorem quotient_unsigned_largest {b : Word} (a : Word) (hb : b ≠ 0#32) :
    (quotient .unsigned a b).toNat * b.toNat ≤ a.toNat ∧
      ∀ q : Nat, q * b.toNat ≤ a.toNat → q ≤ (quotient .unsigned a b).toNat := by
  have hpos : 0 < b.toNat := Nat.pos_of_ne_zero fun h => hb (BitVec.eq_of_toNat_eq h)
  rw [quotient, BitVec.toNat_udiv]
  exact ⟨Nat.div_mul_le_self _ _, fun q hq => (Nat.le_div_iff_mul_le hpos).mpr hq⟩

/-- Settles O19: DIV writes the quotient, or raises on the zero divisor. -/
theorem divIsTheUnsignedQuotient : Obligations.DivIsTheUnsignedQuotient := by
  refine ⟨encodedRI_of_assemble (o := .div) fun _ => rfl, fun r imm s => ⟨fun himm => ?_, fun himm => ?_⟩⟩
  · refine ⟨_, exec_div_completes r s himm, rfl, frame_setReg_advance s r _, fun hfn => ?_, fun h1 => ?_⟩
    · rw [State.reg_advance, State.reg_setReg_self, hfn]
      exact quotient_unsigned_largest _ himm
    · rw [State.reg_advance, State.reg_setReg_self, h1, quotient_one]
  · subst himm
    exact faultsWith_of_raises (.divideByZero r)

/-! Loads and stores. -/

/-- A load that completes writes the sum of the bytes it read, each by its weight. -/
theorem completesWith_load {o : Result} {s : State} (r : Reg) (a : Nat) {w : Byte} (hw : w ∈ [1#8, 2#8, 4#8])
    (h : o = .next (s.setReg r (s.mem.readLE a w.toNat)).advance) :
    CompletesWith o s [.reg r]
      (fun t => (t.reg r).toNat = ∑ k ∈ Finset.range w.toNat, (s.mem.read (a + k)).toNat * 256 ^ k) := by
  refine ⟨_, h, rfl, frame_setReg_advance s r _, ?_⟩
  simpa only [State.reg_advance, State.reg_setReg_self] using (s.mem.readLE_toNat a w.toNat (width_le_four hw)).2

/-- Settles O20: the width, the address, and the load. -/
theorem ldMemLoadsTheBytes : Obligations.LdMemLoadsTheBytes := by
  refine ⟨encodedRM_of_assemble (o := .ldMem) fun _ => rfl, fun r addr disp scale s =>
    ⟨fun hw => faultsWith_of_raises (.ldMemWidth r addr disp scale hw), fun hw ea hea => ?_⟩⟩
  obtain rfl := eq_effectiveAddress hea
  exact ⟨fun hin => completesWith_load r _ hw (exec_ldMem_completes r hw hin),
    fun hout => faultsWith_of_raises (.ldMemAddress r addr disp scale hw hout)⟩

/-- LDR's encoding has two register fields (R83). -/
theorem decode_ldr (rs disp scale i0 i1 i2 i3 : Byte) (rest : List Byte) {r1 r2 : Reg} (h1 : r1.ordinal = rs.toNat % 4)
    (h2 : r2.ordinal = rs.toNat / 4 % 4) :
    decode (0x51#8 :: rs :: disp :: scale :: i0 :: i1 :: i2 :: i3 :: rest) = .ok (.ldr r1 r2 scale, rest) := by
  rw [← regAt_one_eq h1, ← regAt_two_eq h2]
  exact decode_eight (o := .ldr) rs disp scale i0 i1 i2 i3 rest

/-- Settles O21: the width, the address in the second register, and the load. -/
theorem ldrLoadsThroughTheRegister : Obligations.LdrLoadsThroughTheRegister :=
  ⟨fun rs disp scale i0 i1 i2 i3 rest _ _ h1 h2 => decode_ldr rs disp scale i0 i1 i2 i3 rest h1 h2,
    fun r1 r2 scale _ => ⟨fun hw => faultsWith_of_raises (.ldrWidth r1 r2 scale hw),
      fun hw hin => completesWith_load r1 _ hw (exec_ldr_completes r1 hw hin),
      fun hw hout => faultsWith_of_raises (.ldrAddress r1 r2 scale hw hout)⟩⟩

/-- Settles O22: the width, the address, and the store. -/
theorem stStoresTheLowBytes : Obligations.StStoresTheLowBytes := by
  refine ⟨encodedRM_of_assemble (o := .st) fun _ => rfl, fun r addr disp scale s =>
    ⟨fun hw => faultsWith_of_raises (.stWidth r addr disp scale hw), fun hw ea hea => ?_⟩⟩
  obtain rfl := eq_effectiveAddress hea
  refine ⟨fun hin hwf => ⟨_, exec_st_completes r hw hin, rfl, (frame_setMem s _).advance, fun k hk => ?_,
      fun b hb => Memory.read_writeLE_outside _ _ hb⟩,
    fun hout => faultsWith_of_raises (.stAddress r addr disp scale hw hout)⟩
  rw [State.advance_mem, Memory.read_writeLE_inside hwf _ _ _ hk, toNat_shifted_byte]

/-- Bytes that agree with what a store left read back as the low bytes of the stored value (spec/42_load_store.md
R144). -/
theorem readLE_of_stored {m m' : Memory} (hm : m.wf) {a n : Nat} {v : Word} (hn : n ≤ 4)
    (h : ∀ k, k < n → m'.read (a + k) = (m.writeLE a n v).read (a + k)) :
    (m'.readLE a n).toNat = v.toNat % 2 ^ (8 * n) :=
  Memory.readLE_of_bytes hn fun k hk => (h k hk).trans (Memory.read_writeLE_inside hm a n v hk)

/-- Settles O27: the load reads the bytes the store left. -/
theorem storeThenLoadReturnsTheValue : Obligations.StoreThenLoadReturnsTheValue := by
  intro s u r q p addr addr' disp disp' w hwf hw hin
  refine ⟨_, exec_st_completes r hw hin, fun hcfg hbytes => ?_⟩
  have hvalue := readLE_of_stored hwf (width_le_four hw) hbytes
  rw [← hcfg] at hin
  refine ⟨fun hea => ?_, fun hea => ?_⟩ <;> rw [← hea] at hin hvalue
  · exact ⟨_, exec_ldMem_completes q hw hin, rfl, by rwa [State.reg_advance, State.reg_setReg_self]⟩
  · exact ⟨_, exec_ldr_completes q hw hin, rfl, by rwa [State.reg_advance, State.reg_setReg_self]⟩

/-! Compare. -/

/-- Settles O23: the flags of the wrapped difference. -/
theorem cprOrsInTheFlags : Obligations.CprOrsInTheFlags := by
  refine ⟨encodedRI_of_assemble (o := .cpr) fun _ => rfl, fun r imm s d hd => ?_⟩
  have hd' : d = (s.reg r - imm).toNat := by
    rw [← toNat_sub_eq_emod] at hd
    exact_mod_cast hd
  refine ⟨_, rfl, rfl, (frame_setFlags s _).advance, ?_⟩
  simp only [State.advance_flags, compareFlags, hd', BitVec.msb_eq_decide, decide_eq_true_eq, ← BitVec.toNat_inj,
    BitVec.toNat_ofNat, Nat.zero_mod, Nat.add_one_sub_one]

/-- Two legal flag masks have no bit in common (spec/00_scope.md R7). -/
theorem masks_disjoint {c : Config} (h : c.legal = true) : c.flagZMask &&& c.flagNMask = 0#8 := by
  have hbit : ∀ m : Byte, oneBit m = true → ∃ k < 8, m = BitVec.twoPow 8 k := by decide
  simp only [Config.legal, Bool.and_eq_true, decide_eq_true_eq] at h
  obtain ⟨⟨⟨-, hz⟩, hn⟩, hne⟩ := h
  obtain ⟨j, -, hj⟩ := hbit _ hz
  obtain ⟨k, -, hk⟩ := hbit _ hn
  rw [hj, hk] at hne ⊢
  have hjk : j ≠ k := fun e => hne (e ▸ rfl)
  rw [BitVec.twoPow_and, BitVec.getLsbD_twoPow]
  simp [hjk.symm]

/-- A compare of equals ORs Z in, and Z alone. -/
theorem compareFlags_zero (c : Config) (f : Byte) : compareFlags c 0#32 f = f ||| c.flagZMask := by
  simp [compareFlags]

/-- A difference with bit 31 set ORs N in, and N alone. -/
theorem compareFlags_of_msb (c : Config) {d : Word} (f : Byte) (h : d.msb = true) :
    compareFlags c d f = f ||| c.flagNMask := by
  have hd : d ≠ 0#32 := fun e => by simp [e] at h
  simp [compareFlags, h, hd]

/-- Any other difference changes no flag. -/
theorem compareFlags_of_ne_of_not_msb (c : Config) {d : Word} (f : Byte) (hd : d ≠ 0#32) (h : d.msb = false) :
    compareFlags c d f = f := by
  simp [compareFlags, h, hd]

/-- A mask that was ORed in is set. -/
theorem or_and_mask (f m : Byte) : (f ||| m) &&& m = m := by
  ext i hi
  simpa using .inr

/-- ORing Z in leaves N as it was. -/
theorem or_z_and_n {c : Config} (hc : c.legal = true) (f : Byte) :
    (f ||| c.flagZMask) &&& c.flagNMask = f &&& c.flagNMask := by
  rw [byte_or_and, masks_disjoint hc, BitVec.or_zero]

/-- A difference whose bit 31 is clear leaves N as it was. -/
theorem compareFlags_and_n {c : Config} {d : Word} (hc : c.legal = true) (f : Byte) (h : d.msb = false) :
    compareFlags c d f &&& c.flagNMask = f &&& c.flagNMask := by
  by_cases hd : d = 0#32
  · rw [hd, compareFlags_zero, or_z_and_n hc]
  · rw [compareFlags_of_ne_of_not_msb c f hd h]

/-- Settles O26: a difference of 0 ORs Z in, one of 2^31 or more ORs N in, any other changes nothing. -/
theorem compareLaws : Obligations.CompareLaws := by
  intro r v s hc
  refine ⟨_, rfl, fun heq => ?_, fun hbig => ?_, fun hsmall => ?_, fun hlt => ?_, compareFlags_keeps ..,
    compareFlags_outside ..⟩
  · rw [State.advance_flags, heq, BitVec.sub_self, compareFlags_zero]
    exact ⟨or_and_mask .., or_z_and_n hc _⟩
  · rw [State.advance_flags, compareFlags_of_msb _ _ (by simpa [BitVec.msb_eq_decide] using hbig), or_and_mask]
  · exact compareFlags_and_n hc _ (by simpa [BitVec.msb_eq_decide] using hsmall)
  · rw [BitVec.toNat_sub]
    omega

/-! System. -/

/-- Settles O24: STP goes on to the next instruction and halts. -/
theorem stpHalts : Obligations.StpHalts :=
  ⟨fun rs disp scale i0 i1 i2 i3 rest => decode_eight (o := .stp) rs disp scale i0 i1 i2 i3 rest,
    fun s => ⟨_, rfl, rfl, (frame_setStatus s .halted).advance, rfl, rfl⟩⟩

/-- Settles O25: trap 1 emits the port byte where memory reaches the port, and no other trap does anything. -/
theorem brkEmitsThePortByte : Obligations.BrkEmitsThePortByte :=
  ⟨fun rs disp scale i0 i1 i2 i3 rest => decode_eight (o := .brk) rs disp scale i0 i1 i2 i3 rest,
    fun s => ⟨fun h => ⟨_, exec_brk_completes h, rfl, (frame_emit s _).advance, rfl⟩,
      fun h => faultsWith_of_raises (.port h), fun code h => faultsWith_of_raises (.unknownTrap code h)⟩⟩

/-- Settles O28: the store leaves its byte at the port, and the trap emits what stands there. -/
theorem storeToThePortThenTrapEmits : Obligations.StoreToThePortThenTrapEmits := by
  intro s r addr disp w k hwf hw hport hk hin
  have hreach : outPort.toNat < s.cfg.memSize := by
    rw [show outPort.toNat = 0x00F00000 from rfl]
    omega
  have hbyte : (s.mem.writeLE (effectiveAddress addr disp w).toNat w.toNat (s.reg r)).read outPort.toNat
      = (s.reg r).extractLsb' (8 * k) 8 := by
    rw [show outPort.toNat = (effectiveAddress addr disp w).toNat + k from hport.symm,
      Memory.read_writeLE_inside hwf _ _ _ hk, shifted_byte_eq_extractLsb']
  refine ⟨_, _, _, exec_st_completes r hw hin, rfl, exec_brk_completes hreach, ?_, exec_brk_completes hreach, ?_⟩ <;>
    simp [hbyte]

/-! Self-modifying code. -/

/-- After a store of one byte at `a`, the eight bytes from `a` are the stored one and the seven that stood behind it. -/
theorem bytes_after_byte_store {m : Memory} (hm : m.wf) (a : Nat) (v : Word) :
    (List.range 8).map (fun k => (m.writeLE a 1 v).read (a + k))
      = v.setWidth 8 :: (List.range 7).map (fun k => m.read (a + 1 + k)) := by
  rw [List.range_succ_eq_map, List.map_cons, List.map_map]
  congr 1
  · simpa using Memory.read_writeLE_inside hm a 1 v (k := 0) (by decide)
  · refine List.map_congr_left fun k _ => ?_
    rw [Function.comp_apply, Memory.read_writeLE_outside m v (by omega)]
    congr 1
    omega

/-- Settles O43: the eight bytes at the next instruction are the stored opcode byte and the seven that stood behind
it. -/
theorem storedOpcodeRunsNext : Obligations.StoredOpcodeRunsNext := by
  intro s r addr disp i hs hwf hf hfits hsize hea hd
  have hpc : (s.pc + 8#32).toNat = s.pc.toNat + 8 := by
    rw [BitVec.toNat_add, BitVec.toNat_ofNat]
    omega
  have hin : (effectiveAddress addr disp 1#8).toNat + (1#8).toNat ≤ s.cfg.memSize := by
    rw [hea, hpc, show (1#8).toNat = 1 from rfl]
    omega
  refine ⟨_, (step_of_fetch hs hf).trans (exec_st_completes r (by decide) hin), rfl,
    step_of_fetch hs (fetch_of_decode ?_ ?_)⟩
  · rw [State.advance_pc, State.advance_cfg, hpc]
    omega
  · rw [State.advance_pc, State.advance_mem, hea, hpc]
    exact (congrArg decode (bytes_after_byte_store hwf _ _)).trans hd

end Sys2Proof.Machine
end
